-- ==== Sys2Proof/Word.lean ====
section
/-! DEFINITION. The two word types of the block: the byte every store and channel access moves (rule R14, R61)
and the 64-bit word of the command port (rule R80). -/

namespace Sys2Proof

/-- A byte: "an unsigned 8-bit value 0..255" (rule R14). -/
abbrev Byte := BitVec 8

/-- A command word or a response word: a 64-bit value of the command port (rules R80, R83). -/
abbrev Word := BitVec 64

end Sys2Proof
end

