-- ==== Sys2Proof/Machine/Bits.lean ====
section
/-! DEFINITION. The bit fields of a 64-bit word. Command words (rule R81) and response words (rule R90) have the same
five fields: 63:56, 55:48, 47:32, 31:8 and 7:0. Bytes on a transport go most significant first (rule R83). -/

namespace Sys2Proof

/-- `{a, b, c, d, e}`, "that is `OP*2^56 + DEV*2^48 + CH*2^32 + ADDR*2^8 + DATA`" (rule R81; rule R90 for responses). -/
def packWord (f56 f48 f32 f8 f0 : Nat) : Word :=
  BitVec.ofNat 64 (f56 * 2 ^ 56 + f48 * 2 ^ 48 + f32 * 2 ^ 32 + f8 * 2 ^ 8 + f0)

/-- Bits 63:56 of a word: OP of a command, STATUS of a response. -/
def field56 (w : Word) : BitVec 8 := w.extractLsb' 56 8

/-- Bits 55:48 of a word: DEV of a command, INFO of a response. -/
def field48 (w : Word) : BitVec 8 := w.extractLsb' 48 8

/-- Bits 47:32 of a word: CH of a command, WIDE of a response. -/
def field32 (w : Word) : BitVec 16 := w.extractLsb' 32 16

/-- Bits 31:8 of a word: ADDR of a command, SIZE of a response. -/
def field8 (w : Word) : BitVec 24 := w.extractLsb' 8 24

/-- Bits 7:0 of a word: DATA of a command and of a response. -/
def field0 (w : Word) : Byte := w.extractLsb' 0 8

/-- The eight bytes of a word on a byte transport, "the most significant byte (bits 63:56) goes first" (rule R83). -/
def bytesOfWord (w : Word) : List Byte :=
  [w.extractLsb' 56 8, w.extractLsb' 48 8, w.extractLsb' 40 8, w.extractLsb' 32 8,
   w.extractLsb' 24 8, w.extractLsb' 16 8, w.extractLsb' 8 8, w.extractLsb' 0 8]

/-- The first word of a byte transport and the bytes after it (rule R83); none while fewer than eight bytes are there
(log entry 15). -/
def wordOfBytes : List Byte → Option (Word × List Byte)
  | b7 :: b6 :: b5 :: b4 :: b3 :: b2 :: b1 :: b0 :: rest =>
    some (BitVec.ofNat 64 (b7.toNat * 2 ^ 56 + b6.toNat * 2 ^ 48 + b5.toNat * 2 ^ 40 + b4.toNat * 2 ^ 32 +
      b3.toNat * 2 ^ 24 + b2.toNat * 2 ^ 16 + b1.toNat * 2 ^ 8 + b0.toNat), rest)
  | _ => none

end Sys2Proof
end

