-- ==== Sys2Proof/Syntax.lean ====
section
/-! DEFINITION. The syntax of commands: the opcodes of rule R84, one constructor of `Instr` per row of the opcode
table, and the pseudo-instructions of rule R96. DEV, CH and ADDR are unsigned indices taken as is (rule R82), so they
are numbers; the field widths are checked in WellFormed (log entry 19). -/

namespace Sys2Proof

/-- The twelve opcodes of rule R84. -/
inductive Opcode where
  | mrd | mwr | cls | adv | dmp | dmpio | cnew | cdel | cwr | crd | lnk | ulk
deriving DecidableEq, Repr

/-- A command: `d` is a device index (DEV), `c` a channel identity (CH), `addr` a store address (ADDR), `v` a byte
(DATA). -/
inductive Instr where
  /-- MRD, rule R140. -/
  | mrd (d : Nat) (addr : Nat)
  /-- MWR, rule R145. -/
  | mwr (d : Nat) (addr : Nat) (v : Byte)
  /-- CLS, rule R110. -/
  | cls (addr : Nat)
  /-- ADV, rule R190. -/
  | adv (d : Nat)
  /-- DMP, rule R115. -/
  | dmp (d : Nat)
  /-- DMPIO, rule R125. -/
  | dmpio (d : Nat)
  /-- CNEW, rule R160. -/
  | cnew
  /-- CDEL, rule R165. -/
  | cdel (c : Nat)
  /-- CWR, rule R170. -/
  | cwr (c : Nat) (v : Byte)
  /-- CRD, rule R173. -/
  | crd (c : Nat)
  /-- LNK, rule R176. -/
  | lnk (d : Nat) (c : Nat)
  /-- ULK, rule R180. -/
  | ulk (d : Nat)
deriving DecidableEq, Repr

/-- The opcode of a command (rule R84). -/
def Instr.opcode : Instr → Opcode
  | .mrd _ _ => .mrd
  | .mwr _ _ _ => .mwr
  | .cls _ => .cls
  | .adv _ => .adv
  | .dmp _ => .dmp
  | .dmpio _ => .dmpio
  | .cnew => .cnew
  | .cdel _ => .cdel
  | .cwr _ _ => .cwr
  | .crd _ => .crd
  | .lnk _ _ => .lnk
  | .ulk _ => .ulk

/-- The pseudo-instructions of rule R96. -/
inductive Pseudo where
  | setMaster (d : Nat)
  | setSlave (d : Nat)
  | setSD (d : Nat) (v : Byte)
  | getSD (d : Nat)
  /-- `STEP d<a>, d<b>, ...`: one step of rule R205, the devices in the order written. -/
  | step (devices : List Nat)
  /-- `PAIR d<a>, d<b>, c<k>`. -/
  | pair (a b k : Nat)
deriving DecidableEq, Repr

end Sys2Proof
end

