-- ==== Sys2Proof/WellFormed.lean ====
section
/-! DEFINITION. When a command fits the fields of the one command format (rule R81): DEV in 8 bits, CH in 16,
ADDR in 24. DATA is a byte by its type. Rule R95: an operand outside its field "cannot be assembled". -/

namespace Sys2Proof

/-- A device index fits the 8-bit DEV field. -/
def devFits (d : Nat) : Bool := decide (d < 256)

/-- A channel identity fits the 16-bit CH field. -/
def chFits (c : Nat) : Bool := decide (c < 65536)

/-- A store address fits the 24-bit ADDR field (`AW_IN`, rule R8). -/
def addrFits (a : Nat) : Bool := decide (a < 16777216)

/-- Every operand of the command fits its field. -/
def Instr.wf : Instr → Bool
  | .mrd d a => devFits d && addrFits a
  | .mwr d a _ => devFits d && addrFits a
  | .cls a => addrFits a
  | .adv d => devFits d
  | .dmp d => devFits d
  | .dmpio d => devFits d
  | .cnew => true
  | .cdel c => chFits c
  | .cwr c _ => chFits c
  | .crd c => chFits c
  | .lnk d c => devFits d && chFits c
  | .ulk d => devFits d

end Sys2Proof
end

