-- ==== Sys2Proof/Decode.lean ====
section
/-! DEFINITION. The decoder of rules R84 to R88, total on every 64-bit word and rejecting by the two decode refusals of
rule R238; after it the encoder, from the same opcode table and the layout of rule R81; then the opcode table's match
and mask words (rule R85) as the spec writes them. -/

namespace Sys2Proof

/-- Why a word is no command. -/
inductive DecodeError where
  /-- `IllegalOpcode`: OP is 0x00, 0x07 or 0x0E..0xFF (rule R86). -/
  | illegalOpcode
  /-- `ReservedFieldNonZero`: a field the opcode does not use is not zero (rule R87). -/
  | reservedFieldNonZero
deriving DecidableEq, Repr

/-- What the decoder answers. -/
inductive DecodeResult where
  | command (i : Instr)
  | rejected (e : DecodeError)
deriving DecidableEq, Repr

/-- What a byte transport holds: a whole word as the decoder reads it, with the bytes after it, or too few bytes for a
word (log entry 15). -/
inductive ByteDecode where
  | word (r : DecodeResult) (rest : List Byte)
  | needsMoreBytes
deriving DecidableEq, Repr

/-- The OP byte of an opcode (rule R84). -/
def Opcode.code : Opcode → Nat
  | .mrd => 0x01
  | .mwr => 0x02
  | .cls => 0x03
  | .adv => 0x04
  | .dmp => 0x05
  | .dmpio => 0x06
  | .cnew => 0x08
  | .cdel => 0x09
  | .cwr => 0x0A
  | .crd => 0x0B
  | .lnk => 0x0C
  | .ulk => 0x0D

/-- All opcodes, in the table's order. -/
def Opcode.all : List Opcode :=
  [.mrd, .mwr, .cls, .adv, .dmp, .dmpio, .cnew, .cdel, .cwr, .crd, .lnk, .ulk]

/-- The opcode an OP byte names, none for a reserved one (rules R84, R86). -/
def Opcode.ofCode (b : Nat) : Option Opcode :=
  Opcode.all.find? fun k => k.code == b

/-- A command whose unused fields must be zero (rule R87). -/
def acceptIf (unusedZero : Bool) (i : Instr) : DecodeResult :=
  if unusedZero then .command i else .rejected .reservedFieldNonZero

/-- The command of an opcode and its field values; "a field an opcode does not use must be zero" (rules R84, R85, R87). -/
def decodeFields (k : Opcode) (dev ch addr : Nat) (data : Byte) : DecodeResult :=
  match k with
  | .mrd => acceptIf (ch == 0 && data == 0) (.mrd dev addr)
  | .mwr => acceptIf (ch == 0) (.mwr dev addr data)
  | .cls => acceptIf (dev == 0 && ch == 0 && data == 0) (.cls addr)
  | .adv => acceptIf (ch == 0 && addr == 0 && data == 0) (.adv dev)
  | .dmp => acceptIf (ch == 0 && addr == 0 && data == 0) (.dmp dev)
  | .dmpio => acceptIf (ch == 0 && addr == 0 && data == 0) (.dmpio dev)
  | .cnew => acceptIf (dev == 0 && ch == 0 && addr == 0 && data == 0) .cnew
  | .cdel => acceptIf (dev == 0 && addr == 0 && data == 0) (.cdel ch)
  | .cwr => acceptIf (dev == 0 && addr == 0) (.cwr ch data)
  | .crd => acceptIf (dev == 0 && addr == 0 && data == 0) (.crd ch)
  | .lnk => acceptIf (addr == 0 && data == 0) (.lnk dev ch)
  | .ulk => acceptIf (ch == 0 && addr == 0 && data == 0) (.ulk dev)

/-- The decoder (rule R88): every word is one command with its field values, or rejected by rule R86 or R87. -/
def decode (w : Word) : DecodeResult :=
  match Opcode.ofCode (field56 w).toNat with
  | none => .rejected .illegalOpcode
  | some k => decodeFields k (field48 w).toNat (field32 w).toNat (field8 w).toNat (field0 w)

/-- The decoder on a byte transport (rule R83): total on any bytes. -/
def decodeBytes (bs : List Byte) : ByteDecode :=
  match wordOfBytes bs with
  | some (w, rest) => .word (decode w) rest
  | none => .needsMoreBytes

/-- The encoder: the word of a command, by the layout of rule R81 and the table of rule R95. -/
def encode : Instr → Word
  | .mrd d a => packWord 0x01 d 0 a 0
  | .mwr d a v => packWord 0x02 d 0 a v.toNat
  | .cls a => packWord 0x03 0 0 a 0
  | .adv d => packWord 0x04 d 0 0 0
  | .dmp d => packWord 0x05 d 0 0 0
  | .dmpio d => packWord 0x06 d 0 0 0
  | .cnew => packWord 0x08 0 0 0 0
  | .cdel c => packWord 0x09 0 c 0 0
  | .cwr c v => packWord 0x0A 0 c 0 v.toNat
  | .crd c => packWord 0x0B 0 c 0 0
  | .lnk d c => packWord 0x0C d c 0 0
  | .ulk d => packWord 0x0D d 0 0 0

/-- The match column of rule R85. -/
def Opcode.matchWord : Opcode → Word
  | .mrd => 0x0100000000000000
  | .mwr => 0x0200000000000000
  | .cls => 0x0300000000000000
  | .adv => 0x0400000000000000
  | .dmp => 0x0500000000000000
  | .dmpio => 0x0600000000000000
  | .cnew => 0x0800000000000000
  | .cdel => 0x0900000000000000
  | .cwr => 0x0A00000000000000
  | .crd => 0x0B00000000000000
  | .lnk => 0x0C00000000000000
  | .ulk => 0x0D00000000000000

/-- The mask column of rule R85. -/
def Opcode.maskWord : Opcode → Word
  | .mrd => 0xFF00FFFF000000FF
  | .mwr => 0xFF00FFFF00000000
  | .cls => 0xFFFFFFFF000000FF
  | .adv => 0xFF00FFFFFFFFFFFF
  | .dmp => 0xFF00FFFFFFFFFFFF
  | .dmpio => 0xFF00FFFFFFFFFFFF
  | .cnew => 0xFFFFFFFFFFFFFFFF
  | .cdel => 0xFFFF0000FFFFFFFF
  | .cwr => 0xFFFF0000FFFFFF00
  | .crd => 0xFFFF0000FFFFFFFF
  | .lnk => 0xFF000000FFFFFFFF
  | .ulk => 0xFF00FFFFFFFFFFFF

/-- The command word of an opcode-table word: one 64-bit word, its low `nbits` bits from `w` and zero above. -/
def tableWord (nbits w : Nat) : Word := BitVec.ofNat 64 (w % 2 ^ nbits)

/-- What the decoder reads from an opcode-table word; none where it rejects. -/
def decodeTableWord (nbits w : Nat) : Option Instr :=
  match decode (tableWord nbits w) with
  | .command i => some i
  | .rejected _ => none

end Sys2Proof
end

