-- ==== Sys2Proof/Config.lean ====
section
/-! DEFINITION. The implementation parameters of `00_scope.md` rules R7 to R13. The OPEN ones (`N_DEV`, `MEM_INIT`,
`IO_SUBMAP`) are opaque: no proof can see their value, so a claim holds for every draw of them. -/

namespace Sys2Proof

/-- The IO sub-registers that rule R58 names and the source gives no address (rule R13). -/
inductive IoSubRegister where
  | joypad | timer | interrupts | audio | wave | lcd | vramBankSelect | disableBootRom | vramDma | palette | wramBankSelect
deriving DecidableEq, Repr

namespace Config

/-- `N_DEV - 1`, free in 0..255. OPEN in rule R7 (decision D10); log entry 3. -/
opaque nDevLessOne : Fin 256

/-- `N_DEV`, "an integer 1..256" (rule R7). -/
def nDev : Nat := nDevLessOne.val + 1

/-- `MEM_INIT`, the contents of every device's store at reset. OPEN in rule R9 (decision D11): "a claim may not assume
any value of it"; log entry 4. -/
opaque memInit : BitVec 16 → Byte

/-- `LEGACY_READ_BOUND`: "the value of this hardware is `false`" (rule R10, decision D9); log entry 9. -/
def legacyReadBound : Bool := false

/-- `2^CH_ID_W` with `CH_ID_W = 16`: "at most 2^16 channels are ever created" (rule R11, decision D13). -/
def maxChannels : Nat := 65536

/-- `LARGE_MARKER`, the text `<large region>` (rule R12, decision D26). -/
def largeMarker : List Char :=
  ['<', 'l', 'a', 'r', 'g', 'e', ' ', 'r', 'e', 'g', 'i', 'o', 'n', '>']

/-- `IO_SUBMAP`, as each sub-register's place among the 128 bytes of the IO region (rule R58: the table is "over the IO region
only"). OPEN in rule R13 (decision D23), and "nothing in this block reads it"; log entry 10. -/
opaque ioSubmap : IoSubRegister → Fin 128

end Config

end Sys2Proof
end

