-- ==== Sys2Proof/Machine/Memory.lean ====
section
/-! DEFINITION. A device's store (rule R22: "exactly 65536 bytes, indices 0..65535") as plain data: the list of its
non-zero bytes, addresses strictly rising. Every total function from a 16-bit address to a byte is exactly one such
list, so equal stores are equal data (log entry 5); the contents at reset are the free `MEM_INIT` (log entry 4). -/

namespace Sys2Proof.Machine

/-- A store: its listed cells, in rising address order. -/
abbrev Memory := List Host.Cell

/-- The number of bytes of a store (rule R22). -/
def storeSize : Nat := 65536

/-- What an address that no cell lists holds. It fixes no reset value: reset lists every byte of `MEM_INIT` that is
not this one (log entry 5). -/
def Memory.unlisted : Byte := 0

/-- The byte at address `a`. -/
def Memory.read : Memory → Nat → Byte
  | [], _ => Memory.unlisted
  | (k, b) :: m, a => if k = a then b else Memory.read m a

/-- The store with no cell for address `a`. -/
def Memory.remove (m : Memory) (a : Nat) : Memory := m.filter fun cell => cell.1 != a

/-- The store with a cell for `a` put before the first higher address. -/
def Memory.insertCell (a : Nat) (v : Byte) : Memory → Memory
  | [] => [(a, v)]
  | (k, b) :: m => if a < k then (a, v) :: (k, b) :: m else (k, b) :: Memory.insertCell a v m

/-- `mem[a] <- v`: the byte at `a` is replaced; a byte equal to an unlisted one is not listed. -/
def Memory.write (m : Memory) (a : Nat) (v : Byte) : Memory :=
  if v = Memory.unlisted then m.remove a else (m.remove a).insertCell a v

/-- The canonical form: addresses strictly rising and inside the store, no listed byte equal to an unlisted one. -/
abbrev Memory.wf (m : Memory) : Prop :=
  m.Pairwise (fun x y => x.1 < y.1) ∧ ∀ cell ∈ m, cell.1 < storeSize ∧ cell.2 ≠ Memory.unlisted

/-- The canonical cells of the `n` bytes that `f` gives the addresses from `a` on. -/
def Memory.cellsFrom (f : BitVec 16 → Byte) : (n : Nat) → (a : Nat) → Memory
  | 0, _ => []
  | n + 1, a =>
    if f (BitVec.ofNat 16 a) = Memory.unlisted then Memory.cellsFrom f n (a + 1)
    else (a, f (BitVec.ofNat 16 a)) :: Memory.cellsFrom f n (a + 1)

/-- The store whose byte at each address is what `f` gives it (rule R37). -/
def Memory.ofInit (f : BitVec 16 → Byte) : Memory := Memory.cellsFrom f storeSize 0

end Sys2Proof.Machine
end

