-- ==== Sys2Proof/Machine/State.lean ====
section
/-! DEFINITION. The architectural state of `10_state.md` as plain data, the reasons a command has no step, and reset.
Two pieces of the spec's state are views of these fields: `N_DEV` is the length of `dev` (rule R21, log entry 3) and
`next_ch` is the length of `chan` (rule R28: the pool holds exactly the identities below `next_ch`; log entry 6). -/

namespace Sys2Proof.Machine

/-- The region identifiers of rule R50. -/
inductive RegionId where
  | rom0 | rom1 | vram | exram | wram | echo | oam | reserved | io | hram | ie
deriving DecidableEq, Repr

/-- The role a device acts in for one ADV, computed and never stored (rule R25). -/
inductive Role where
  | master | slave
deriving DecidableEq, Repr

/-- The status of a response (rule R91): there is no other code. -/
inductive Status where
  | ok | outOfRange | noCableConnected
deriving DecidableEq, Repr

/-- A dump record (rule R115). -/
inductive Record where
  /-- `NAME(r)`, a region's name. -/
  | name (r : RegionId)
  /-- `BYTES(b_1 .. b_k)` with 1 <= k <= 8, one output line of bytes. -/
  | bytes (bs : List Byte)
  /-- `LARGE`, the large-region marker. -/
  | large
  /-- `BLANK`, a blank line. -/
  | blank
deriving DecidableEq, Repr

/-- A response: the fields of the response word (rule R90) and the attached dump records (rule R33). "Every response
field a command's rule does not set is 0": the defaults. -/
structure Response where
  status : Status := .ok
  info : BitVec 8 := 0
  wide : BitVec 16 := 0
  size : BitVec 24 := 0
  data : Byte := 0
  records : List Record := []
deriving DecidableEq, Repr

/-- A channel record (rules R28, R29): whether its lifetime still runs, and the line's single-slot register. -/
structure Channel where
  live : Bool
  value : Byte
deriving DecidableEq, Repr

/-- A device: its store (rule R22), which holds SERIAL_DATA and SERIAL_CONTROL (rules R26, R27), and its non-owning
handle, the identity of a channel or none (rule R24). -/
structure Device where
  mem : Memory
  hdl : Option Nat
deriving DecidableEq, Repr

/-- The state of the block: the devices, the channel pool, the response log (`10_state.md` section 7), and the model's
own `port`. -/
structure State where
  /-- `dev[d]`, d = 0 .. N_DEV-1 (rule R21). -/
  dev : List Device
  /-- `chan[c]`, c = 0 .. next_ch-1 (rule R28). -/
  chan : List Channel
  /-- Every response produced, in command order, oldest first (rule R32). -/
  log : List Response
  /-- The model's own: the command words the host has issued and the block has not yet performed, the next one first
  (rule R80; log entry 1). -/
  port : List Word
deriving DecidableEq, Repr

/-- The faults of the block: it has none. "The block has no trap, exception or fault" (rule R230), "no fatal condition
at all" (rule R233). Nothing raises one, which is the spec's own word and so neither safe nor unsafe. -/
inductive Fault where
deriving DecidableEq, Repr

/-- Why a command has no step: the closed list of rule R238. Each leaves the block stuck, which is safe: "a model that is
stuck where real hardware might do something errs toward unprovable" (log entry 8). -/
inductive Refusal where
  /-- An arm of `exec` that has no meaning yet; no arm of this model raises it. Safe. -/
  | notModelled (mnemonic : String)
  /-- A step on a word with a reserved OP byte (rule R86). Safe. -/
  | illegalOpcode
  /-- A step on a word with a non-zero unused field (rule R87). Safe. -/
  | reservedFieldNonZero
  /-- MRD, MWR, ADV, DMP, DMPIO, LNK or ULK with DEV >= N_DEV (rule R239). Safe. -/
  | noSuchDevice
  /-- CDEL, CWR, CRD or LNK with CH >= next_ch (rule R240). Safe. -/
  | noSuchChannel
  /-- CNEW when 2^16 channels have been created (rule R241). Safe. -/
  | channelIdsExhausted
deriving DecidableEq, Repr

/-- The block right after reset (rules R37 to R40, R260), with `n` devices and the store contents `init`: every store
holds `init`, every handle is none, the pool and the log are empty; the host has issued nothing. -/
def State.construct (n : Nat) (init : BitVec 16 → Byte) : State :=
  { dev := List.replicate n { mem := Memory.ofInit init, hdl := none }
    chan := []
    log := []
    port := [] }

/-- Reset (rule R260): `N_DEV` devices, every store at `MEM_INIT`, both OPEN (log entries 3 and 4). -/
def State.reset : State := State.construct Config.nDev Config.memInit

end Sys2Proof.Machine
end

