-- ==== Sys2Proof/Machine/Regions.lean ====
section
/-! DEFINITION. The fixed region table (rules R50 to R55), the IO sub-register table (rule R58) and the addresses of the
serial registers. None of it is state and no command changes it (rule R34). -/

namespace Sys2Proof.Machine

/-- A row of the region table; "all bounds inclusive" (rule R50). -/
structure Region where
  id : RegionId
  start : Nat
  stop : Nat
  size : Nat
deriving DecidableEq, Repr

/-- The region table of rule R50. -/
def regionTable : List Region :=
  [ ⟨.rom0, 0x0000, 0x3FFF, 0x4000⟩,
    ⟨.rom1, 0x4000, 0x7FFF, 0x4000⟩,
    ⟨.vram, 0x8000, 0x9FFF, 0x2000⟩,
    ⟨.exram, 0xA000, 0xBFFF, 0x2000⟩,
    ⟨.wram, 0xC000, 0xDFFF, 0x2000⟩,
    ⟨.echo, 0xE000, 0xFDFF, 0x1E00⟩,
    ⟨.oam, 0xFE00, 0xFE9F, 0x00A0⟩,
    ⟨.reserved, 0xFEA0, 0xFEFF, 0x0060⟩,
    ⟨.io, 0xFF00, 0xFF7F, 0x0080⟩,
    ⟨.hram, 0xFF80, 0xFFFE, 0x007F⟩,
    ⟨.ie, 0xFFFF, 0xFFFF, 0x0001⟩ ]

/-- The `id` column of rule R50. -/
def RegionId.code : RegionId → Nat
  | .rom0 => 0
  | .rom1 => 1
  | .vram => 2
  | .exram => 3
  | .wram => 4
  | .echo => 5
  | .oam => 6
  | .reserved => 7
  | .io => 8
  | .hram => 9
  | .ie => 10

/-- The printable name of a region (rule R54). -/
def RegionId.printable : RegionId → List Char
  | .rom0 => ['R', 'O', 'M', '0']
  | .rom1 => ['R', 'O', 'M', '1']
  | .vram => ['V', 'R', 'A', 'M']
  | .exram => ['E', 'X', 'R', 'A', 'M']
  | .wram => ['W', 'R', 'A', 'M']
  | .echo => ['E', 'C', 'H', 'O']
  | .oam => ['O', 'A', 'M']
  | .reserved => ['R', 'E', 'S', 'E', 'R', 'V', 'E', 'D']
  | .io => ['I', 'O']
  | .hram => ['H', 'R', 'A', 'M']
  | .ie => ['I', 'E']

/-- The address lies in the region: `start <= a <= end` (rule R52). -/
def Region.contains (r : Region) (a : Nat) : Bool := decide (r.start ≤ a) && decide (a ≤ r.stop)

/-- `region_of(a)`, the row that holds the address (rule R52); none outside 0..65535. -/
def regionOf (a : Nat) : Option Region := regionTable.find? fun r => r.contains a

/-- `is_start(a)`: the address is a region's start (rule R53). -/
def isStart (a : Nat) : Bool := regionTable.any fun r => r.start == a

/-- SERIAL_DATA is store byte 0xFF01 (rule R26). -/
def serialDataAddr : Nat := 0xFF01

/-- SERIAL_CONTROL is store byte 0xFF02 (rule R27). -/
def serialControlAddr : Nat := 0xFF02

/-- The names of the IO sub-register table (rule R58). -/
inductive IoName where
  | serialData
  | serialControl
  | other (r : IoSubRegister)
deriving DecidableEq, Repr

/-- The IO region's first address (rule R50); the region has 128 bytes. -/
def ioStart : Nat := 0xFF00

/-- The IO sub-register table, "over the IO region only" (rule R58): the two addresses the source gives, the others the OPEN
`IO_SUBMAP` (rule R13), each inside the IO region. "No command of this block reads the sub-register table." -/
def ioAddress : IoName → Nat
  | .serialData => serialDataAddr
  | .serialControl => serialControlAddr
  | .other r => ioStart + (Config.ioSubmap r).val

end Sys2Proof.Machine
end

