-- ==== Sys2Proof/Machine/Ops.lean ====
section
/-! DEFINITION. The named operations over the state: stores, the channel pool, handles and the log. The block takes no
exception and returns from none (rules R246, R247), so no such operation stands here. -/

namespace Sys2Proof.Machine

/-- `N_DEV` (rules R7, R21). -/
def State.nDev (s : State) : Nat := s.dev.length

/-- `next_ch` (rule R30): the pool holds exactly the identities below it (rule R28). -/
def State.nextCh (s : State) : Nat := s.chan.length

/-- `mem_d[a]`, one byte of one device's store (rule R22); none for a device that does not exist. -/
def State.byte (s : State) (d a : Nat) : Option Byte := s.dev[d]?.map fun x => x.mem.read a

/-- `hdl_d` (rule R24); none too for a device that does not exist. -/
def State.handle (s : State) (d : Nat) : Option Nat := s.dev[d]?.bind fun x => x.hdl

/-- `x` put in the place of device `d`. -/
def State.setDev (s : State) (d : Nat) (x : Device) : State := { s with dev := s.dev.set d x }

/-- `ch` put in the place of channel record `c`. -/
def State.setChan (s : State) (c : Nat) (ch : Channel) : State := { s with chan := s.chan.set c ch }

/-- A new channel record with identity `next_ch`, which it raises by one (rule R30). -/
def State.addChan (s : State) (ch : Channel) : State := { s with chan := s.chan ++ [ch] }

/-- `respond(...)`: the response is appended to the log (rules R15, R32). -/
def State.respond (s : State) (r : Response) : State := { s with log := s.log ++ [r] }

/-- The device with `mem[a] <- v` done in its store. -/
def Device.store (x : Device) (a : Nat) (v : Byte) : Device := { x with mem := x.mem.write a v }

/-- The device with its handle replaced. -/
def Device.setHandle (x : Device) (h : Option Nat) : Device := { x with hdl := h }

/-- SERIAL_DATA (rule R26). -/
def Device.serialData (x : Device) : Byte := x.mem.read serialDataAddr

/-- SERIAL_CONTROL (rule R27). -/
def Device.serialControl (x : Device) : Byte := x.mem.read serialControlAddr

/-- `role_d = (mem_d[0xFF02] == 0xFF) ? MASTER : SLAVE` (rules R25, R191). -/
def Device.role (x : Device) : Role := if x.serialControl = 0xFF then .master else .slave

/-- Channel `c` is live: `c < next_ch` and `chan[c].live` (rule R161). -/
def State.isLive (s : State) (c : Nat) : Bool :=
  match s.chan[c]? with
  | some ch => ch.live
  | none => false

/-- The live channel a handle names, with its identity; none when the handle is not valid (rule R162): absent, or naming
a channel that is dead (or, in states no run reaches, was never created: log entry 7). -/
def State.cable (s : State) (h : Option Nat) : Option (Nat × Channel) :=
  match h with
  | none => none
  | some c =>
    match s.chan[c]? with
    | some ch => if ch.live then some (c, ch) else none
    | none => none

/-- The handle is valid (rule R162). -/
def State.validHandle (s : State) (h : Option Nat) : Bool := (s.cable h).isSome

end Sys2Proof.Machine
end

