-- ==== Sys2Proof/Machine/Flags.lean ====
section
/-! DEFINITION. The response word: status codes, the INFO byte and the 64-bit layout (rules R90 to R94). The block has no
status flags (rule R35): what a command reports is its response, and "the block keeps no sticky error bit" (rule R235). -/

namespace Sys2Proof.Machine

/-- The status codes of rule R91. -/
def Status.code : Status → Nat
  | .ok => 0x00
  | .outOfRange => 0x01
  | .noCableConnected => 0x02

/-- ROLE in an ADV response: MASTER = 0x01, SLAVE = 0x02 (rule R93). -/
def Role.code : Role → BitVec 8
  | .master => 0x01
  | .slave => 0x02

/-- The response word `{STATUS, INFO, WIDE, SIZE, DATA}` (rule R90). -/
def Response.word (r : Response) : Word :=
  packWord r.status.code r.info.toNat r.wide.toNat r.size.toNat r.data.toNat

/-- INFO of a CLS response that found a region: REGION in bits 7:4, zero in bits 3:2, IS_START in bit 1, FOUND in bit 0
(rule R92). -/
def clsInfo (isStart : Bool) (region : RegionId) : BitVec 8 :=
  BitVec.ofNat 4 region.code ++ 0#2 ++ BitVec.ofBool isStart ++ BitVec.ofBool true

/-- The response of an ADV: STATUS, INFO = ROLE, DATA = SERIAL_DATA after the command (rule R93). -/
def advResponse (status : Status) (role : Role) (serialData : Byte) : Response :=
  { status := status, info := role.code, data := serialData }

/-- The status of a command on a channel record: OK when it is live, else NO_CABLE_CONNECTED (rules R165, R170, R173,
R176). -/
def Channel.status (ch : Channel) : Status := if ch.live then .ok else .noCableConnected

/-- The next value of a master's counter: `next = (current == 255) ? 0 : current + 1` (rule R193). -/
def masterNext (current : Byte) : Byte := if current = 255 then 0 else current + 1

end Sys2Proof.Machine
end

