-- ==== Sys2Proof/Machine/Operands.lean ====
section
/-! DEFINITION. The operands of a command: a device index, a channel identity and a store address, with the checks that are
made "when the command is performed" (rule R88), in the order of rule R242. -/

namespace Sys2Proof.Machine

/-- What a command answers. -/
abbrev Result := Host.Outcome State Fault Refusal

/-- The device operand: `if d >= N_DEV: refuse(NoSuchDevice)` (rule R239), else the device. -/
def withDevice (s : State) (d : Nat) (k : Device → Result) : Result :=
  match s.dev[d]? with
  | none => .refused .noSuchDevice
  | some x => k x

/-- The channel operand: `if c >= next_ch: refuse(NoSuchChannel)` (rule R240), else the channel record, live or dead. -/
def withChannel (s : State) (c : Nat) (k : Channel → Result) : Result :=
  match s.chan[c]? with
  | none => .refused .noSuchChannel
  | some ch => k ch

/-- The highest address MRD may read: 0xFFFE under `LEGACY_READ_BOUND`, else 0xFFFF (rules R59, R60, R140). -/
def readLimit (legacy : Bool) : Nat := if legacy then 0xFFFE else 0xFFFF

/-- The highest address MWR may write, in both settings of `LEGACY_READ_BOUND` (rules R59, R145). -/
def writeLimit : Nat := 0xFFFF

/-- The store address a write command's ADDR names: itself (rule R100), none outside the domain (rule R59). -/
def storeAddr (a : Nat) : Option Nat := if a ≤ writeLimit then some a else none

/-- The store address a read command's ADDR names under a setting of `LEGACY_READ_BOUND`. -/
def loadAddr (legacy : Bool) (a : Nat) : Option Nat := if a ≤ readLimit legacy then some a else none

/-- The device a command is addressed to: its DEV field, where its opcode uses one (rule R84). -/
def device? : Instr → Option Nat
  | .mrd d _ => some d
  | .mwr d _ _ => some d
  | .cls _ => none
  | .adv d => some d
  | .dmp d => some d
  | .dmpio d => some d
  | .cnew => none
  | .cdel _ => none
  | .cwr _ _ => none
  | .crd _ => none
  | .lnk d _ => some d
  | .ulk d => some d

/-- The channel identity a command names: its CH field, where its opcode uses one (rule R84). -/
def channel? : Instr → Option Nat
  | .mrd _ _ => none
  | .mwr _ _ _ => none
  | .cls _ => none
  | .adv _ => none
  | .dmp _ => none
  | .dmpio _ => none
  | .cnew => none
  | .cdel c => some c
  | .cwr c _ => some c
  | .crd c => some c
  | .lnk _ c => some c
  | .ulk _ => none

end Sys2Proof.Machine
end

