-- ==== Sys2Proof/Machine/Channels.lean ====
section
/-! DEFINITION. The channel and handle commands of `42_channel.md`: CNEW, CDEL, CWR, CRD, LNK, ULK. None of them reads or
writes a store (rule R184). -/

namespace Sys2Proof.Machine

/-- CNEW (rule R160): a new live channel of value 0 with identity `next_ch`, refused once all identities are given
(rule R241; `next_ch` above 2^16, which no run reaches, is refused too: log entry 6). -/
def execCnew (s : State) : Result :=
  if s.nextCh < Config.maxChannels then
    .next ((s.addChan { live := true, value := 0 }).respond { wide := BitVec.ofNat 16 s.nextCh })
  else .refused .channelIdsExhausted

/-- CDEL (rule R165): the channel's lifetime ends; its record keeps its last value (rule R31) and no handle changes. -/
def execCdel (c : Nat) (s : State) : Result :=
  withChannel s c fun ch =>
    .next ((if ch.live then s.setChan c { ch with live := false } else s).respond { status := ch.status })

/-- CWR (rule R170): the line's value is overwritten. -/
def execCwr (c : Nat) (v : Byte) (s : State) : Result :=
  withChannel s c fun ch =>
    .next ((if ch.live then s.setChan c { ch with value := v } else s).respond { status := ch.status })

/-- CRD (rule R173): the line's value is sampled; a read of a dead channel returns 0. -/
def execCrd (c : Nat) (s : State) : Result :=
  withChannel s c fun ch =>
    .next (s.respond { status := ch.status, data := if ch.live then ch.value else 0 })

/-- LNK (rule R176): the handle is set, also to a dead channel; the device is checked before the channel (rule R242). -/
def execLnk (d c : Nat) (s : State) : Result :=
  withDevice s d fun x =>
    withChannel s c fun ch =>
      .next ((s.setDev d (x.setHandle (some c))).respond { status := ch.status })

/-- ULK (rule R180): the handle is dropped. -/
def execUlk (d : Nat) (s : State) : Result :=
  withDevice s d fun x => .next ((s.setDev d (x.setHandle none)).respond {})

end Sys2Proof.Machine
end

