-- ==== Sys2Proof/Machine/Classifier.lean ====
section
/-! DEFINITION. The region classifier of `40_region_table.md` section 1: CLS. -/

namespace Sys2Proof.Machine

/-- What CLS answers for an address (rules R92, R110): a function of ADDR alone (rule R111). -/
def classify (a : Nat) : Response :=
  match regionOf a with
  | some r =>
    { info := clsInfo (a == r.start) r.id, wide := BitVec.ofNat 16 r.start, size := BitVec.ofNat 24 r.size }
  | none => {}

/-- CLS (rule R110): "never refused once decoded, because it names no device and no channel". -/
def execCls (a : Nat) (s : State) : Result := .next (s.respond (classify a))

end Sys2Proof.Machine
end

