-- ==== Sys2Proof/Machine/Dumps.lean ====
section
/-! DEFINITION. The dumps of `40_region_table.md` sections 2 and 3: DMP and DMPIO, the record sequences they attach to their
responses, and the text rendering of rule R121. A dump reads the store directly, not through the arbiter (rule R119). -/

namespace Sys2Proof.Machine

/-- `BYTES(S[lo], .., S[hi])`. -/
def byteLine (m : Memory) (lo hi : Nat) : Record :=
  .bytes ((List.range (hi + 1 - lo)).map fun j => m.read (lo + j))

/-- The byte lines of a region, 8 bytes a line, the last line the bytes left over (rules R115, R118). -/
def regionLines (m : Memory) (r : Region) : List Record :=
  (List.range ((r.size + 7) / 8)).map fun k =>
    byteLine m (r.start + 8 * k) (min (r.start + 8 * k + 7) r.stop)

/-- The records of one region: its name, `LARGE` when its size is greater than 256 else its byte lines (rule R117), and
`BLANK` (rule R122). -/
def regionRecords (m : Memory) (r : Region) : List Record :=
  [.name r.id] ++ (if 256 < r.size then [.large] else regionLines m r) ++ [.blank]

/-- The records of DMP: "the eleven regions in ascending address order" (rule R116). -/
def dumpRecords (m : Memory) : List Record := regionTable.flatMap (regionRecords m)

/-- The walk of rule R115's pseudocode over `n` addresses from `a` on: at each region start, that region's records. An
obligation states that the walk over all of 0..65535 gives `dumpRecords`. -/
def dumpWalk (m : Memory) : (n : Nat) → (a : Nat) → List Record
  | 0, _ => []
  | n + 1, a =>
    (if isStart a then
      match regionOf a with
      | some r => regionRecords m r
      | none => []
    else []) ++ dumpWalk m n (a + 1)

/-- The records of DMPIO: sixteen lines of 8 bytes, 0xFF00..0xFF7F (rule R125). -/
def dumpIoRecords (m : Memory) : List Record :=
  (List.range 16).map fun k => byteLine m (0xFF00 + 8 * k) (0xFF00 + 8 * k + 7)

/-- DMP (rule R115). -/
def execDmp (d : Nat) (s : State) : Result :=
  withDevice s d fun x => .next (s.respond { records := dumpRecords x.mem })

/-- DMPIO (rule R125). -/
def execDmpio (d : Nat) (s : State) : Result :=
  withDevice s d fun x => .next (s.respond { records := dumpIoRecords x.mem })

/-- An uppercase hexadecimal digit (rule R121). -/
def hexDigit (n : Nat) : Char := if n < 10 then Char.ofNat (48 + n) else Char.ofNat (55 + n)

/-- A byte as two uppercase hexadecimal digits (rule R121). -/
def hexByte (b : Byte) : List Char := [hexDigit (b.toNat / 16), hexDigit (b.toNat % 16)]

/-- A line of bytes, "one space between two bytes and none before the first or after the last" (rule R121). -/
def hexLine : List Byte → List Char
  | [] => []
  | [b] => hexByte b
  | b :: bs => hexByte b ++ [' '] ++ hexLine bs

/-- The text of one record, without its line feed (rule R121). -/
def renderRecord : Record → List Char
  | .name r => r.printable
  | .bytes bs => hexLine bs
  | .large => Config.largeMarker
  | .blank => []

/-- A dump as text: "each record is one line ended by a line feed (0x0A)" (rule R121; log entry 14). -/
def renderDump (rs : List Record) : List Char := rs.flatMap fun r => renderRecord r ++ [Char.ofNat 10]

end Sys2Proof.Machine
end

