-- ==== Sys2Proof/Machine/Serial.lean ====
section
/-! DEFINITION. The serial engine of `43_serial_protocol.md`: ADV, one step of one device's transfer state machine. -/

namespace Sys2Proof.Machine

/-- A master's step (rules R193 to R197): SERIAL_DATA counts up whatever follows, then the new value is driven onto the
linked live channel, if there is one. -/
def masterStep (s : State) (d : Nat) (x : Device) : State :=
  let next := masterNext x.serialData
  let s1 := s.setDev d (x.store serialDataAddr next)
  match s.cable x.hdl with
  | some (c, ch) => (s1.setChan c { ch with value := next }).respond (advResponse .ok .master next)
  | none => s1.respond (advResponse .noCableConnected .master next)

/-- A slave's step (rules R198 to R200): SERIAL_DATA becomes the line's value; without a live channel it is left as it is. -/
def slaveStep (s : State) (d : Nat) (x : Device) : State :=
  match s.cable x.hdl with
  | some (_, ch) => (s.setDev d (x.store serialDataAddr ch.value)).respond (advResponse .ok .slave ch.value)
  | none => s.respond (advResponse .noCableConnected .slave x.serialData)

/-- One step of the serial engine, in the role SERIAL_CONTROL selects now (rule R191). -/
def serialStep (s : State) (d : Nat) (x : Device) : State :=
  match x.role with
  | .master => masterStep s d x
  | .slave => slaveStep s d x

/-- ADV (rule R190). -/
def execAdv (d : Nat) (s : State) : Result :=
  withDevice s d fun x => .next (serialStep s d x)

end Sys2Proof.Machine
end

