-- ==== Sys2Proof/Machine/StoreAccess.lean ====
section
/-! DEFINITION. The bounds-checked store access of `41_address_space.md`: MRD and MWR. -/

namespace Sys2Proof.Machine

/-- MRD under a setting of `LEGACY_READ_BOUND` (rules R140, R141). -/
def readStore (legacy : Bool) (d a : Nat) (s : State) : Result :=
  withDevice s d fun x =>
    match loadAddr legacy a with
    | none => .next (s.respond { status := .outOfRange })
    | some a => .next (s.respond { data := x.mem.read a })

/-- MRD (rule R140), with this hardware's `LEGACY_READ_BOUND` (rule R10). -/
def execMrd (d a : Nat) (s : State) : Result := readStore Config.legacyReadBound d a s

/-- MWR (rule R145): the byte is replaced and the byte it held before is returned. -/
def execMwr (d a : Nat) (v : Byte) (s : State) : Result :=
  withDevice s d fun x =>
    match storeAddr a with
    | none => .next (s.respond { status := .outOfRange })
    | some a => .next ((s.setDev d (x.store a v)).respond { data := x.mem.read a })

end Sys2Proof.Machine
end

