-- ==== Sys2Proof/Machine/Dispatch.lean ====
section
/-! DEFINITION. One arm per command: each calls its meaning. -/

namespace Sys2Proof.Machine

/-- The meaning of a command (rule R84's last column). -/
def exec (i : Instr) (s : State) : Host.Outcome State Fault Refusal :=
  match i with
  | .mrd d a => Sys2Proof.Machine.execMrd d a s
  | .mwr d a v => Sys2Proof.Machine.execMwr d a v s
  | .cls a => Sys2Proof.Machine.execCls a s
  | .adv d => Sys2Proof.Machine.execAdv d s
  | .dmp d => Sys2Proof.Machine.execDmp d s
  | .dmpio d => Sys2Proof.Machine.execDmpio d s
  | .cnew => Sys2Proof.Machine.execCnew s
  | .cdel c => Sys2Proof.Machine.execCdel c s
  | .cwr c v => Sys2Proof.Machine.execCwr c v s
  | .crd c => Sys2Proof.Machine.execCrd c s
  | .lnk d c => Sys2Proof.Machine.execLnk d c s
  | .ulk d => Sys2Proof.Machine.execUlk d s

end Sys2Proof.Machine
end

