-- ==== Sys2Proof/Machine/Port.lean ====
section
/-! DEFINITION. The command port (rule R80): taking the next command word the host has issued, and performing one word. -/

namespace Sys2Proof.Machine

/-- The host issues command words, performed in the order issued (rules R20, R68). -/
def State.issue (s : State) (ws : List Word) : State := { s with port := s.port ++ ws }

/-- The next command word, and the state without it; none when the host has issued nothing more. -/
def State.takeCommand (s : State) : Option (Word × State) :=
  match s.port with
  | [] => none
  | w :: ws => some (w, { s with port := ws })

/-- The refusal of a word the decoder rejects (rules R86, R87, R238). -/
def decodeRefusal : DecodeError → Refusal
  | .illegalOpcode => .illegalOpcode
  | .reservedFieldNonZero => .reservedFieldNonZero

/-- One command word performed on a state: refused by the decoder, or the meaning of the command it spells (rule R88). -/
def performWord (w : Word) (s : State) : Result :=
  match decode w with
  | .rejected e => .refused (decodeRefusal e)
  | .command i => exec i s

end Sys2Proof.Machine
end

