-- ==== Sys2Proof/Machine/Step.lean ====
section
/-! DEFINITION. One step of the block: the next command of the port is performed. With nothing issued the block "holds its
state and does nothing" (rules R253, R261; log entry 1). -/

namespace Sys2Proof.Machine

/-- One step: the next command word the host has issued is decoded and performed; none issued, nothing changes. -/
def step (s : State) : Host.Outcome State Fault Refusal :=
  match s.takeCommand with
  | none => .next s
  | some (w, s') => performWord w s'

/-- The state with an opcode-table word issued as the very next command (log entry 2). -/
def State.withFetchWord (s : State) (nbits w : Nat) : State :=
  { s with port := tableWord nbits w :: s.port }

end Sys2Proof.Machine
end

