-- ==== Sys2Proof/Machine/Assembler.lean ====
section
/-! DEFINITION. The assembler syntax of rule R95 and the pseudo-instructions of rule R96: one line of text to the commands it
stands for. What the rules leave unsaid of the text (white space, letter case, an empty line) is log entry 13. -/

namespace Sys2Proof.Asm

/-- An operand as written: `d<n>`, `c<n>`, or a number (rule R95). -/
inductive Operand where
  | dev (n : Nat)
  | chan (n : Nat)
  | num (n : Nat)
deriving DecidableEq, Repr

/-- What a line's first word may be. -/
inductive Name where
  | command (k : Opcode)
  | setMaster | setSlave | setSD | getSD | step | pair
deriving DecidableEq, Repr

end Sys2Proof.Asm

namespace Sys2Proof.Machine

open Sys2Proof.Asm

/-- The expansion of a pseudo-instruction (rule R96). -/
def expand : Pseudo → List Instr
  | .setMaster d => [.mwr d serialControlAddr 0xFF]
  | .setSlave d => [.mwr d serialControlAddr 0x00]
  | .setSD d v => [.mwr d serialDataAddr v]
  | .getSD d => [.mrd d serialDataAddr]
  | .step ds => ds.map .adv
  | .pair a b k => [.cnew, .lnk a k, .lnk b k]

/-- Where a pseudo-instruction may stand: PAIR's k "must equal `next_ch` before the CNEW" (rule R96). -/
def pseudoApplies (s : State) : Pseudo → Bool
  | .setMaster _ => true
  | .setSlave _ => true
  | .setSD _ _ => true
  | .getSD _ => true
  | .step _ => true
  | .pair _ _ k => k == s.nextCh

/-- A byte operand; one outside 0..0xFF cannot be assembled (rule R95). -/
def byteOperand (n : Nat) : Option Byte := if n < 256 then some (BitVec.ofNat 8 n) else none

/-- Commands that all fit their fields; others cannot be assembled (rule R95). -/
def whenFit (is : List Instr) : Option (List Instr) := if is.all Instr.wf then some is else none

/-- The device operands of STEP. -/
def devOperands : List Operand → Option (List Nat)
  | [] => some []
  | .dev d :: os => (devOperands os).map (d :: ·)
  | .chan _ :: _ => none
  | .num _ :: _ => none

/-- The commands of a name and its operands, by the tables of rules R95 and R96; none where it cannot be assembled. -/
def assemble (name : Name) (os : List Operand) : Option (List Instr) :=
  match name, os with
  | .command .mrd, [.dev d, .num a] => whenFit [.mrd d a]
  | .command .mwr, [.dev d, .num a, .num v] => (byteOperand v).bind fun b => whenFit [.mwr d a b]
  | .command .cls, [.num a] => whenFit [.cls a]
  | .command .adv, [.dev d] => whenFit [.adv d]
  | .command .dmp, [.dev d] => whenFit [.dmp d]
  | .command .dmpio, [.dev d] => whenFit [.dmpio d]
  | .command .cnew, [] => whenFit [.cnew]
  | .command .cdel, [.chan c] => whenFit [.cdel c]
  | .command .cwr, [.chan c, .num v] => (byteOperand v).bind fun b => whenFit [.cwr c b]
  | .command .crd, [.chan c] => whenFit [.crd c]
  | .command .lnk, [.dev d, .chan c] => whenFit [.lnk d c]
  | .command .ulk, [.dev d] => whenFit [.ulk d]
  | .setMaster, [.dev d] => whenFit (expand (.setMaster d))
  | .setSlave, [.dev d] => whenFit (expand (.setSlave d))
  | .setSD, [.dev d, .num v] => (byteOperand v).bind fun b => whenFit (expand (.setSD d b))
  | .getSD, [.dev d] => whenFit (expand (.getSD d))
  | .step, o :: os => (devOperands (o :: os)).bind fun ds => whenFit (expand (.step ds))
  | .pair, [.dev a, .dev b, .chan k] => whenFit (expand (.pair a b k))
  | _, _ => none

/-- The names of rules R84 and R96 as written. -/
def nameTable : List (List Char × Name) :=
  [ (['M', 'R', 'D'], .command .mrd),
    (['M', 'W', 'R'], .command .mwr),
    (['C', 'L', 'S'], .command .cls),
    (['A', 'D', 'V'], .command .adv),
    (['D', 'M', 'P'], .command .dmp),
    (['D', 'M', 'P', 'I', 'O'], .command .dmpio),
    (['C', 'N', 'E', 'W'], .command .cnew),
    (['C', 'D', 'E', 'L'], .command .cdel),
    (['C', 'W', 'R'], .command .cwr),
    (['C', 'R', 'D'], .command .crd),
    (['L', 'N', 'K'], .command .lnk),
    (['U', 'L', 'K'], .command .ulk),
    (['S', 'E', 'T', 'M', 'A', 'S', 'T', 'E', 'R'], .setMaster),
    (['S', 'E', 'T', 'S', 'L', 'A', 'V', 'E'], .setSlave),
    (['S', 'E', 'T', 'S', 'D'], .setSD),
    (['G', 'E', 'T', 'S', 'D'], .getSD),
    (['S', 'T', 'E', 'P'], .step),
    (['P', 'A', 'I', 'R'], .pair) ]

/-- The name a word spells. -/
def nameOf (w : List Char) : Option Name := (nameTable.find? fun row => row.1 == w).map Prod.snd

/-- A blank or a tab. -/
def isGap (c : Char) : Bool := c == ' ' || c == Char.ofNat 9

/-- The text without white space before and after it. -/
def trim (cs : List Char) : List Char := ((cs.dropWhile isGap).reverse.dropWhile isGap).reverse

/-- The text before the first `;`, which "starts a comment" (rule R95). -/
def stripComment (cs : List Char) : List Char := cs.takeWhile fun c => c != ';'

/-- The parts of a text between commas. -/
def splitCommas : List Char → List (List Char)
  | [] => [[]]
  | c :: cs =>
    if c = ',' then [] :: splitCommas cs
    else
      match splitCommas cs with
      | [] => [[c]]
      | part :: parts => (c :: part) :: parts

/-- The value of a digit in base 10 or 16. -/
def digitValue (hex : Bool) (c : Char) : Option Nat :=
  let n := c.toNat
  if 48 ≤ n ∧ n ≤ 57 then some (n - 48)
  else if hex then
    if 65 ≤ n ∧ n ≤ 70 then some (n - 55)
    else if 97 ≤ n ∧ n ≤ 102 then some (n - 87)
    else none
  else none

/-- The number a digit text spells, after the digits read so far. -/
def digitsFrom (hex : Bool) : Nat → List Char → Option Nat
  | n, [] => some n
  | n, c :: cs =>
    match digitValue hex c with
    | some v => digitsFrom hex (n * (if hex then 16 else 10) + v) cs
    | none => none

/-- A number of at least one digit. -/
def digits (hex : Bool) : List Char → Option Nat
  | [] => none
  | c :: cs => digitsFrom hex 0 (c :: cs)

/-- An operand as written: `d<n>` and `c<n>` with n decimal, or "a number (`0x` for hexadecimal)" (rule R95). -/
def operandOf : List Char → Option Operand
  | 'd' :: cs => (digits false cs).map .dev
  | 'c' :: cs => (digits false cs).map .chan
  | '0' :: 'x' :: cs => (digits true cs).map .num
  | cs => (digits false cs).map .num

/-- All operands of a line, none if one of them is none. -/
def operandsOf : List (List Char) → Option (List Operand)
  | [] => some []
  | p :: ps =>
    match operandOf (trim p), operandsOf ps with
    | some o, some os => some (o :: os)
    | _, _ => none

/-- The commands of one line of assembly; a line with nothing but white space or a comment has none (log entry 13). -/
def assembleLine (cs : List Char) : Option (List Instr) :=
  match trim (stripComment cs) with
  | [] => some []
  | line =>
    let word := line.takeWhile fun c => !isGap c
    let rest := trim (line.drop word.length)
    match nameOf word, (if rest = [] then some [] else operandsOf (splitCommas rest)) with
    | some name, some os => assemble name os
    | _, _ => none

/-- The command words of a program, "one command per line" (rule R95). -/
def assembleProgram : List (List Char) → Option (List Word)
  | [] => some []
  | l :: ls =>
    match assembleLine l, assembleProgram ls with
    | some is, some ws => some (is.map encode ++ ws)
    | _, _ => none

end Sys2Proof.Machine
end

