-- ==== Sys2Proof/Machine/SerialFsm.lean ====
section
/-! DEFINITION. The transfer state machine of rule R192, state by state. "Only IDLE is held between commands; every other
state lasts within one ADV and is not observable", so it is no field of State (log entry 17); ADV's meaning is the atomic
`execAdv`, and an obligation states that the machine run from EVAL to IDLE does exactly what `execAdv` does. -/

namespace Sys2Proof.Machine

/-- The states of rule R192's table. -/
inductive Phase where
  | idle | eval | mInc | mCommit | mSend | sRecv | sCommit | done
deriving DecidableEq, Repr

/-- A transfer in progress: its phase, the values the table's actions pass on (`next` of a master, `v` of a slave), the role
EVAL selected and the status, and the block's state. -/
structure Transfer where
  phase : Phase
  next : Byte
  v : Byte
  role : Role
  status : Status
  block : State
deriving DecidableEq, Repr

/-- SERIAL_DATA of device `d`, 0 for a device that does not exist (no ADV is performed on one, rule R239). -/
def State.serialDataOf (s : State) (d : Nat) : Byte := (s.byte d serialDataAddr).getD 0

/-- `mem_d[0xFF01] <- v`. -/
def State.setSerialData (s : State) (d : Nat) (v : Byte) : State :=
  match s.dev[d]? with
  | some x => s.setDev d (x.store serialDataAddr v)
  | none => s

/-- An ADV naming `d` arrives in IDLE: the machine goes to EVAL (rule R192). -/
def Transfer.start (s : State) : Transfer :=
  { phase := .eval, next := 0, v := 0, role := .slave, status := .ok, block := s }

/-- One row of rule R192's table: the state's action and the next state. In IDLE nothing happens until an ADV arrives. -/
def Transfer.advance (d : Nat) (t : Transfer) : Transfer :=
  match t.phase with
  | .idle => t
  | .eval =>
    if t.block.byte d serialControlAddr = some 0xFF then { t with phase := .mInc, role := .master }
    else { t with phase := .sRecv, role := .slave }
  | .mInc => { t with phase := .mCommit, next := masterNext (t.block.serialDataOf d) }
  | .mCommit => { t with phase := .mSend, block := t.block.setSerialData d t.next }
  | .mSend =>
    match t.block.cable (t.block.handle d) with
    | some (c, ch) =>
      { t with phase := .done, status := .ok, block := t.block.setChan c { ch with value := t.next } }
    | none => { t with phase := .done, status := .noCableConnected }
  | .sRecv =>
    match t.block.cable (t.block.handle d) with
    | some (_, ch) => { t with phase := .sCommit, v := ch.value }
    | none => { t with phase := .done, status := .noCableConnected }
  | .sCommit => { t with phase := .done, status := .ok, block := t.block.setSerialData d t.v }
  | .done =>
    { t with
      phase := .idle
      block := t.block.respond (advResponse t.status t.role (t.block.serialDataOf d)) }

/-- `n` rows of the table. -/
def Transfer.run (d : Nat) : Nat → Transfer → Transfer
  | 0, t => t
  | n + 1, t => Transfer.run d n (t.advance d)

end Sys2Proof.Machine
end

