-- ==== Sys2Proof/Safety.lean ====
section
/-! DEFINITION. What claims speak of: the invariant of the block's state, runs (rule R276), and the duties the rules put on
the host (rules R266, R268, R269), which the block itself does not check. -/

namespace Sys2Proof.Machine

/-- A dump record as rule R115 allows it: a byte line holds 1 to 8 bytes. -/
def Record.wf : Record → Bool
  | .name _ => true
  | .bytes bs => decide (1 ≤ bs.length) && decide (bs.length ≤ 8)
  | .large => true
  | .blank => true

/-- A response as the rules allow it: INFO bits 3:2 are 0 (rules R92, R93) and every byte line holds 1 to 8 bytes. -/
def Response.wf (r : Response) : Bool := r.info.extractLsb' 2 2 == 0 && r.records.all Record.wf

/-- A handle is none or names a channel that has been created (rules R163, R240). -/
def State.handleCreated (s : State) (h : Option Nat) : Bool :=
  match h with
  | none => true
  | some c => decide (c < s.nextCh)

/-- The invariant: 1 to 256 devices (rule R7), every store in canonical form (rule R22), no handle of a channel never
created (rule R240), at most 2^16 channels (rule R30), and every response of a shape the rules allow. -/
abbrev State.Inv (s : State) : Prop :=
  (1 ≤ s.nDev ∧ s.nDev ≤ 256) ∧
  (∀ x ∈ s.dev, x.mem.wf ∧ s.handleCreated x.hdl = true) ∧
  s.nextCh ≤ Config.maxChannels ∧
  (∀ r ∈ s.log, r.wf = true)

/-- The command writes channel `c`'s line when performed in this state: a CWR naming it, or an ADV of a master whose handle
names it (rules R170, R195). -/
def State.writesLine (s : State) (c : Nat) : Instr → Bool
  | .mrd _ _ => false
  | .mwr _ _ _ => false
  | .cls _ => false
  | .adv d => decide (s.byte d serialControlAddr = some 0xFF) && decide (s.handle d = some c)
  | .dmp _ => false
  | .dmpio _ => false
  | .cnew => false
  | .cdel _ => false
  | .cwr c' _ => decide (c' = c)
  | .crd _ => false
  | .lnk _ _ => false
  | .ulk _ => false

/-- The lifetime duty of rule R268: every handle names a live channel or none. -/
def State.handlesLive (s : State) : Bool :=
  s.dev.all fun x =>
    match x.hdl with
    | none => true
    | some c => s.isLive c

/-- How many devices' handles name channel `c`. -/
def State.referrers (s : State) (c : Nat) : Nat := (s.dev.filter fun x => x.hdl == some c).length

/-- The sharing duty of rule R268: at most two devices refer to one channel. -/
def State.sharingDuty (s : State) : Bool := (List.range s.nextCh).all fun c => decide (s.referrers c ≤ 2)

/-- The step duty of rule R266 on the order of one step's devices: each at most once, and no slave before a master whose
channel it shares. -/
def State.stepDuty (s : State) : List Nat → Bool
  | [] => true
  | d :: ds =>
    !ds.contains d &&
    (match s.dev[d]? with
      | none => true
      | some x =>
        x.role == .master ||
          ds.all fun e =>
            match s.dev[e]? with
            | none => true
            | some y => y.role == .slave || y.hdl != x.hdl || (s.cable x.hdl).isNone) &&
    State.stepDuty s ds

/-- Commands performed one after the other; the first refusal ends it (rules R68, R276). -/
def runCommands : List Instr → State → Result
  | [], s => .next s
  | i :: is, s =>
    match exec i s with
    | .next s' => runCommands is s'
    | .fault r => .fault r
    | .refused r => .refused r

/-- The command duty of rule R269: no command of the run is refused. -/
def commandDuty (is : List Instr) (s : State) : Prop := ∃ t, runCommands is s = .next t

/-- No command of the run, each seen in the state it is performed in, writes channel `c`'s line or ends its lifetime ("no other
write to c comes between", rule R174). -/
def lineKept (c : Nat) : List Instr → State → Bool
  | [], _ => true
  | i :: is, s =>
    !s.writesLine c i && decide (i ≠ .cdel c) &&
      match exec i s with
      | .next s' => lineKept c is s'
      | .fault _ => true
      | .refused _ => true

/-- What a next state is, through a map of states; a stop stays the stop it is. -/
def mapNext (f : State → State) : Result → Result
  | .next s => .next (f s)
  | .fault r => .fault r
  | .refused r => .refused r

/-- The state with another store in device `d`: two states that differ only there are `s` and `s.withStore d m`. -/
def State.withStore (s : State) (d : Nat) (m : Memory) : State :=
  { s with dev := s.dev.modify d fun x => { x with mem := m } }

end Sys2Proof.Machine
end

