-- ==== Sys2Proof/Certificates/Slice0/Obligations.lean ====
section
/-! DEFINITION. The statements about the model, for the provers. Each docstring names the rule of spec/ it formalises; where
the statement rests on a decision or an inference the spec marks as its own, or on a choice of this model, it says so. -/

open Sys2Proof Sys2Proof.Machine

/-! ### Encoding -/

/-- Decode and encode agree on every well-formed command, every operand at every value its field admits (`30_encoding.md`
sections 1 to 3; the operands as numbers with a check are log entry 19). -/
def Obligations.EncodedCommandDecodesBack : Prop :=
  ∀ i : Instr, i.wf = true → decode (encode i) = .command i

/-- Each command has one word: a word that decodes to a command is that command's encoding, and its operands fit their
fields (`30_encoding.md` sections 1 to 3). -/
def Obligations.DecodedWordEncodesBack : Prop :=
  ∀ (w : Word) (i : Instr), decode w = .command i → i.wf = true ∧ encode i = w

/-- Rule R85 (the spec's decision D5): a word is the command with opcode `k` exactly when `(word & mask_k) == match_k`, and
no two rows match one word. -/
def Obligations.MatchAndMaskSelectTheCommand : Prop :=
  (∀ (w : Word) (k : Opcode), w &&& k.maskWord = k.matchWord ↔ ∃ i, decode w = .command i ∧ i.opcode = k) ∧
  ∀ (w : Word) (k k' : Opcode), w &&& k.maskWord = k.matchWord → w &&& k'.maskWord = k'.matchWord → k = k'

/-- Rule R86 (the spec's decision D5): opcodes 0x00, 0x07 and 0x0E..0xFF spell no command, and a word with one of them is
refused with reason `IllegalOpcode`. -/
def Obligations.ReservedOpcodesAreRefused : Prop :=
  (∀ w : Word, decode w = .rejected .illegalOpcode ↔
    (field56 w = 0x00 ∨ field56 w = 0x07 ∨ 0x0E ≤ (field56 w).toNat)) ∧
  ∀ (s : State) (w : Word) (ws : List Word), s.port = w :: ws →
    (field56 w = 0x00 ∨ field56 w = 0x07 ∨ 0x0E ≤ (field56 w).toNat) → step s = .refused .illegalOpcode

/-- Rule R87 (the spec's decision D5): a word whose OP is an opcode, but which has a bit set in that opcode's mask outside the
OP byte, is refused with reason `ReservedFieldNonZero`. -/
def Obligations.NonZeroUnusedFieldsAreRefused : Prop :=
  (∀ w : Word, decode w = .rejected .reservedFieldNonZero ↔
    ∃ k : Opcode, (field56 w).toNat = k.code ∧ w &&& (k.maskWord &&& 0x00FFFFFFFFFFFFFF) ≠ 0) ∧
  ∀ (s : State) (w : Word) (ws : List Word) (k : Opcode), s.port = w :: ws → (field56 w).toNat = k.code →
    w &&& (k.maskWord &&& 0x00FFFFFFFFFFFFFF) ≠ 0 → step s = .refused .reservedFieldNonZero

/-- Words written out from the spec decode to the commands they stand for: the worked encodings of `30_encoding.md` section 5
and words of `95_test_vectors.md`, one of every family. -/
def Obligations.WrittenOutWordsDecode : Prop :=
  decode 0x0201000000FF0201 = .command (.mwr 1 0xFF02 0x01) ∧
  decode 0x0400000000000000 = .command (.adv 0) ∧
  decode 0x0100000001000000 = .command (.mrd 0 0x10000) ∧
  decode 0x0300000000FE9F00 = .command (.cls 0xFE9F) ∧
  decode 0x0500000000000000 = .command (.dmp 0) ∧
  decode 0x0C01000000000000 = .command (.lnk 1 0) ∧
  decode 0x0A000000000000AA = .command (.cwr 0 0xAA) ∧
  decode 0x0A000000000100AA = .rejected .reservedFieldNonZero ∧
  decode 0x0700000000000000 = .rejected .illegalOpcode

/-- Rule R83 (the spec's decision D31): as bytes a word goes most significant byte (bits 63:56) first, and the word and what
follows it are read back. -/
def Obligations.WordTravelsMostSignificantByteFirst : Prop :=
  ∀ (w : Word) (rest : List Byte),
    (bytesOfWord w).head? = some (field56 w) ∧
    wordOfBytes (bytesOfWord w ++ rest) = some (w, rest) ∧
    decodeBytes (bytesOfWord w ++ rest) = .word (decode w) rest

/-- The response word's layout `{STATUS, INFO, WIDE, SIZE, DATA}` with status codes 0x00, 0x01 and 0x02 and no other
(`30_encoding.md` section 4). -/
def Obligations.ResponseWordHoldsItsFields : Prop :=
  ∀ r : Response,
    (field56 r.word).toNat =
      (match r.status with | .ok => 0x00 | .outOfRange => 0x01 | .noCableConnected => 0x02) ∧
    field48 r.word = r.info ∧ field32 r.word = r.wide ∧ field8 r.word = r.size ∧ field0 r.word = r.data ∧
    (field56 r.word).toNat < 0x03

/-- What the line of each mnemonic of rule R95's table assembles to, at every operand: the commands of an assembled line fit
their fields, and an address operand above 0xFFFFFF or a byte operand above 0xFF cannot be assembled (`30_encoding.md` section
5, the spec's decision D40). That a device above 255 and a channel above 65535 cannot be assembled either is this model's choice
(log entry 13). -/
def Obligations.AssembledCommandsFit : Prop :=
  (∀ (name : Asm.Name) (os : List Asm.Operand) (is : List Instr), assemble name os = some is → ∀ i ∈ is, i.wf = true) ∧
  (∀ d a : Nat, assemble (.command .mrd) [.dev d, .num a] =
    if d < 256 ∧ a ≤ 0xFFFFFF then some [.mrd d a] else none) ∧
  (∀ d a v : Nat, assemble (.command .mwr) [.dev d, .num a, .num v] =
    if d < 256 ∧ a ≤ 0xFFFFFF ∧ v ≤ 0xFF then some [.mwr d a (BitVec.ofNat 8 v)] else none) ∧
  (∀ a : Nat, assemble (.command .cls) [.num a] = if a ≤ 0xFFFFFF then some [.cls a] else none) ∧
  (∀ d : Nat, assemble (.command .adv) [.dev d] = if d < 256 then some [.adv d] else none) ∧
  (∀ d : Nat, assemble (.command .dmp) [.dev d] = if d < 256 then some [.dmp d] else none) ∧
  (∀ d : Nat, assemble (.command .dmpio) [.dev d] = if d < 256 then some [.dmpio d] else none) ∧
  assemble (.command .cnew) [] = some [.cnew] ∧
  (∀ c : Nat, assemble (.command .cdel) [.chan c] = if c < 65536 then some [.cdel c] else none) ∧
  (∀ c v : Nat, assemble (.command .cwr) [.chan c, .num v] =
    if c < 65536 ∧ v ≤ 0xFF then some [.cwr c (BitVec.ofNat 8 v)] else none) ∧
  (∀ c : Nat, assemble (.command .crd) [.chan c] = if c < 65536 then some [.crd c] else none) ∧
  (∀ d c : Nat, assemble (.command .lnk) [.dev d, .chan c] = if d < 256 ∧ c < 65536 then some [.lnk d c] else none) ∧
  (∀ d : Nat, assemble (.command .ulk) [.dev d] = if d < 256 then some [.ulk d] else none) ∧
  ∀ d v : Nat, assemble .setSD [.dev d, .num v] =
    if d < 256 ∧ v ≤ 0xFF then some [.mwr d 0xFF01 (BitVec.ofNat 8 v)] else none

/-- What the lines of the six pseudo-instructions of rule R96 assemble to: their expansions (`30_encoding.md` section 5, the
spec's decision D40). That a device above 255 or a channel above 65535 cannot be assembled, and that STEP takes at least one
device, is this model's choice (log entry 13). -/
def Obligations.PseudoInstructionsAssembleToTheirExpansions : Prop :=
  (∀ d : Nat, assemble .setMaster [.dev d] = if d < 256 then some [.mwr d 0xFF02 0xFF] else none) ∧
  (∀ d : Nat, assemble .setSlave [.dev d] = if d < 256 then some [.mwr d 0xFF02 0x00] else none) ∧
  (∀ d v : Nat, assemble .setSD [.dev d, .num v] =
    if d < 256 ∧ v ≤ 0xFF then some [.mwr d 0xFF01 (BitVec.ofNat 8 v)] else none) ∧
  (∀ d : Nat, assemble .getSD [.dev d] = if d < 256 then some [.mrd d 0xFF01] else none) ∧
  (∀ ds : List Nat, assemble .step (ds.map Asm.Operand.dev) =
    if ds ≠ [] ∧ ∀ d ∈ ds, d < 256 then some (ds.map Instr.adv) else none) ∧
  ∀ a b k : Nat, assemble .pair [.dev a, .dev b, .chan k] =
    if a < 256 ∧ b < 256 ∧ k < 65536 then some [.cnew, .lnk a k, .lnk b k] else none

/-! ### The step, reset and the invariant -/

/-- A step runs the issued command: the next word of the port, taken off the port, decoded and performed; a rejected word is
refused and, with nothing issued, the block holds its state (`30_encoding.md` section 1, `60_exceptions.md` section 5; the port
as a list of the state is this model's choice, log entry 1). -/
def Obligations.StepPerformsTheIssuedCommand : Prop :=
  ∀ s : State,
    (s.port = [] → step s = .next s) ∧
    (∀ (i : Instr) (ws : List Word), i.wf = true → s.port = encode i :: ws → step s = exec i { s with port := ws }) ∧
    ∀ (w : Word) (ws : List Word), s.port = w :: ws →
      (∀ i, decode w = .command i → step s = exec i { s with port := ws }) ∧
      (decode w = .rejected .illegalOpcode → step s = .refused .illegalOpcode) ∧
      (decode w = .rejected .reservedFieldNonZero → step s = .refused .reservedFieldNonZero)

/-- Rules R37 and R40 (the spec's decisions D11 and D37), with the rest of the reset summary: `N_DEV` devices, every store byte
`MEM_INIT` of its address, every handle none, the pool and the log empty. -/
def Obligations.ResetLeavesMemInitAndNothingElse : Prop :=
  State.reset.nDev = Config.nDev ∧ 1 ≤ Config.nDev ∧ Config.nDev ≤ 256 ∧
  (∀ d a : Nat, d < Config.nDev → a ≤ 0xFFFF → State.reset.byte d a = some (Config.memInit (BitVec.ofNat 16 a))) ∧
  (∀ (d : Nat) (x : Device), State.reset.dev[d]? = some x → x.hdl = none) ∧
  State.reset.nextCh = 0 ∧ State.reset.log = []

/-- The invariant holds at reset. -/
def Obligations.ResetMeetsTheInvariant : Prop := State.reset.Inv

/-- Every step keeps the invariant: 1 to 256 devices, stores in canonical form inside 0..65535, handles of created channels
only, at most 2^16 channels, responses and dump records of the shape the rules allow (`10_state.md`; the canonical form is
this model's, log entry 5). -/
def Obligations.StepKeepsTheInvariant : Prop :=
  ∀ s t : State, s.Inv → step s = .next t → t.Inv

/-- Rule R32 (the spec's decision D2): a response is appended by every command that is not refused, and nothing removes or
changes an entry of the log; no command touches the commands still to come (the port is this model's, log entry 1). -/
def Obligations.EveryCommandAppendsOneResponse : Prop :=
  (∀ (i : Instr) (s t : State), exec i s = .next t → (∃ r, t.log = s.log ++ [r]) ∧ t.port = s.port) ∧
  ∀ s t : State, step s = .next t → (s.port = [] ∧ t.log = s.log) ∨ (s.port ≠ [] ∧ ∃ r, t.log = s.log ++ [r])

/-- Rule R21 (the spec's decision D12): the set of devices is fixed, no command creates or destroys one. -/
def Obligations.NoCommandChangesTheDeviceSet : Prop :=
  (∀ (i : Instr) (s t : State), exec i s = .next t → t.nDev = s.nDev) ∧ ∀ s t : State, step s = .next t → t.nDev = s.nDev

/-! ### Refusals and statuses -/

/-- Rules R239, R240 and R241 (the spec's decisions D41, D14, D13): exactly which commands are refused when performed, with
which reason, the device checked before the channel. -/
def Obligations.RefusalsAreExactlyTheListedOnes : Prop :=
  ∀ (i : Instr) (s : State) (r : Refusal), s.nextCh ≤ 65536 →
    (exec i s = .refused r ↔
      (r = .noSuchDevice ∧ ∃ d, s.nDev ≤ d ∧
        ((∃ a, i = .mrd d a) ∨ (∃ a v, i = .mwr d a v) ∨ i = .adv d ∨ i = .dmp d ∨ i = .dmpio d ∨
          (∃ c, i = .lnk d c) ∨ i = .ulk d)) ∨
      (r = .noSuchChannel ∧ ∃ c, s.nextCh ≤ c ∧
        (i = .cdel c ∨ (∃ v, i = .cwr c v) ∨ i = .crd c ∨ ∃ d, d < s.nDev ∧ i = .lnk d c)) ∨
      (r = .channelIdsExhausted ∧ i = .cnew ∧ s.nextCh = 65536))

/-- The error causes and the commands that report them, and no others (`60_exceptions.md` section 1): OUT_OF_RANGE of MRD and MWR
above 0xFFFF; NO_CABLE_CONNECTED of ADV without a valid handle and of CDEL, CWR, CRD and LNK on a dead channel. -/
def Obligations.StatusesComeFromTheListedCauses : Prop :=
  ∀ (i : Instr) (s t : State) (r : Response), exec i s = .next t → t.log = s.log ++ [r] →
    (r.status = .outOfRange ↔ ∃ d a, 0xFFFF < a ∧ (i = .mrd d a ∨ ∃ v, i = .mwr d a v)) ∧
    (r.status = .noCableConnected ↔
      (∃ d, i = .adv d ∧ s.validHandle (s.handle d) = false) ∨
      ∃ c, s.isLive c = false ∧ (i = .cdel c ∨ (∃ v, i = .cwr c v) ∨ i = .crd c ∨ ∃ d, i = .lnk d c))

/-! ### Store access -/

/-- Rule R140: MRD returns the byte of an address up to the read limit and OUT_OF_RANGE with DATA = 0 above it, changing nothing
but the log; a device that does not exist is refused. -/
def Obligations.MrdReturnsTheStoreByte : Prop :=
  ∀ (s : State) (d a : Nat),
    encode (.mrd d a) = packWord 0x01 d 0 a 0 ∧
    (s.nDev ≤ d → exec (.mrd d a) s = .refused .noSuchDevice) ∧
    (∀ b, s.byte d a = some b → a ≤ 0xFFFF →
      exec (.mrd d a) s = .next { s with log := s.log ++ [{ status := .ok, data := b }] }) ∧
    (d < s.nDev → 0xFFFF < a →
      exec (.mrd d a) s = .next { s with log := s.log ++ [{ status := .outOfRange, data := 0 }] }) ∧
    (∀ b, s.byte d a = some b → a ≤ 0xFFFE →
      readStore true d a s = .next { s with log := s.log ++ [{ status := .ok, data := b }] }) ∧
    (d < s.nDev → 0xFFFE < a →
      readStore true d a s = .next { s with log := s.log ++ [{ status := .outOfRange, data := 0 }] })

/-- Rule R141 (the spec's decision D9): with `LEGACY_READ_BOUND = true`, MRD of 0xFFFF returns OUT_OF_RANGE with DATA = 0 while MWR
of 0xFFFF still succeeds; this hardware has it false. -/
def Obligations.LegacyBoundMakesTheTopByteWriteOnly : Prop :=
  Config.legacyReadBound = false ∧
  ∀ (s : State) (d : Nat) (v : Byte), d < s.nDev →
    readStore true d 0xFFFF s = .next { s with log := s.log ++ [{ status := .outOfRange, data := 0 }] } ∧
    ∃ t old, exec (.mwr d 0xFFFF v) s = .next t ∧ t.byte d 0xFFFF = some v ∧
      s.byte d 0xFFFF = some old ∧ t.log = s.log ++ [{ status := .ok, data := old }]

/-- Rule R145: MWR replaces the byte its address names, returns the byte it held and changes no other byte, handle or channel;
above 0xFFFF it answers OUT_OF_RANGE with DATA = 0 and changes nothing but the log. -/
def Obligations.MwrReplacesTheByteAndReturnsTheOldOne : Prop :=
  ∀ (s : State) (d a : Nat) (v : Byte),
    encode (.mwr d a v) = packWord 0x02 d 0 a v.toNat ∧
    (s.nDev ≤ d → exec (.mwr d a v) s = .refused .noSuchDevice) ∧
    (d < s.nDev → 0xFFFF < a →
      exec (.mwr d a v) s = .next { s with log := s.log ++ [{ status := .outOfRange, data := 0 }] }) ∧
    ∀ old, s.byte d a = some old → a ≤ 0xFFFF →
      ∃ t, exec (.mwr d a v) s = .next t ∧
        (∀ e b, t.byte e b = if e = d ∧ b = a then some v else s.byte e b) ∧
        (∀ e, t.handle e = s.handle e) ∧ t.nDev = s.nDev ∧ t.chan = s.chan ∧ t.port = s.port ∧
        t.log = s.log ++ [{ status := .ok, data := old }]

/-- The frame of the commands that address the store by ADDR: MRD stores nothing, and MWR changes no byte but the one at the
address `storeAddr` computes (`41_address_space.md` sections 1 and 2). -/
def Obligations.StoreCommandsFrame : Prop :=
  (∀ (s t : State) (d a : Nat), exec (.mrd d a) s = .next t →
    (∀ e b, t.byte e b = s.byte e b) ∧ (∀ e, t.handle e = s.handle e) ∧ t.chan = s.chan ∧ t.nDev = s.nDev) ∧
  ∀ (s t : State) (d a : Nat) (v : Byte), exec (.mwr d a v) s = .next t →
    (∀ a', storeAddr a = some a' → ∀ e b, ¬(e = d ∧ b = a') → t.byte e b = s.byte e b) ∧
    (storeAddr a = none → ∀ e b, t.byte e b = s.byte e b) ∧
    (∀ e, t.handle e = s.handle e) ∧ t.chan = s.chan ∧ t.nDev = s.nDev

/-- The store round trip over the full valid domain (`41_address_space.md` section 2, which marks it derived): after MWR, and any
commands that write neither that byte by MWR nor, for 0xFF01, by an ADV of that device, MRD returns the byte written. -/
def Obligations.StoreRoundTrip : Prop :=
  ∀ (s t u : State) (d a : Nat) (v : Byte) (is : List Instr), a ≤ 0xFFFF → exec (.mwr d a v) s = .next t →
    (∀ i ∈ is, (∀ v', i ≠ .mwr d a v') ∧ (a = 0xFF01 → i ≠ .adv d)) → runCommands is t = .next u →
    exec (.mrd d a) u = .next { u with log := u.log ++ [{ status := .ok, data := v }] }

/-- No command addressed to other devices, and no channel command, changes a byte of a device's store or depends on it: with
another store in device `e` each answers the same, that store apart (`10_state.md` section 2 and `42_channel.md` section 5, which
mark it derived). -/
def Obligations.CommandsNeitherReadNorWriteOtherStores : Prop :=
  ∀ (i : Instr) (s : State) (e : Nat) (m : Memory),
    (device? i ≠ some e ∨ (∃ d c, i = .lnk d c) ∨ ∃ d, i = .ulk d) →
    exec i (s.withStore e m) = mapNext (fun t => t.withStore e m) (exec i s) ∧
    ∀ t, exec i s = .next t → ∀ a, t.byte e a = s.byte e a

/-! ### The classifier and the dumps -/

/-- Rules R92 and R110 (the spec's decisions D20 and D21): CLS returns the region that holds the address, whether the address is its
start, the region's start and size, always with status OK; above 0xFFFF nothing is found and every field is 0. -/
def Obligations.ClsReturnsTheContainingRegion : Prop :=
  ∀ (s : State) (a : Nat),
    encode (.cls a) = packWord 0x03 0 0 a 0 ∧
    (∀ r ∈ regionTable, r.start ≤ a → a ≤ r.stop →
      ∃ resp : Response, exec (.cls a) s = .next { s with log := s.log ++ [resp] } ∧ resp.records = [] ∧
        resp.word = packWord 0x00 (16 * r.id.code + (if a = r.start then 2 else 0) + 1) r.start r.size 0) ∧
    (0xFFFF < a → exec (.cls a) s = .next { s with log := s.log ++ [{}] } ∧ ({} : Response).word = 0)

/-- Rule R111: the response of CLS depends on ADDR alone, whatever the stores, channels and handles hold. -/
def Obligations.ClsDependsOnTheAddressAlone : Prop :=
  ∀ a : Nat, ∃ r : Response, ∀ s : State, exec (.cls a) s = .next { s with log := s.log ++ [r] }

/-- The region table covers the store without gap or overlap: sizes and neighbours agree, every address up to 0xFFFF is in exactly
one row, the one `regionOf` finds, and no higher address is in any (`20_memory.md` section 1, which marks it derived). -/
def Obligations.RegionsPartitionTheStore : Prop :=
  (∀ r ∈ regionTable, r.size = r.stop - r.start + 1 ∧ r.start ≤ r.stop) ∧
  (regionTable.map Region.size).sum = 0x10000 ∧
  (∀ a : Nat, a ≤ 0xFFFF → ∃ r, regionOf a = some r ∧ r ∈ regionTable ∧ r.contains a = true ∧
    ∀ r' ∈ regionTable, r'.contains a = true → r' = r) ∧
  (∀ a : Nat, 0xFFFF < a → regionOf a = none) ∧
  ∀ a : Nat, isStart a = true ↔
    a ∈ [0x0000, 0x4000, 0x8000, 0xA000, 0xC000, 0xE000, 0xFE00, 0xFEA0, 0xFF00, 0xFF80, 0xFFFF]

/-- Rule R115 (the spec's decisions D24, D25, D39): DMP answers OK with the records of the walk over the addresses 0..65535, region
start by region start, and changes nothing but the log. -/
def Obligations.DmpAttachesTheRecordsOfTheWalk : Prop :=
  ∀ (s : State) (d : Nat),
    encode (.dmp d) = packWord 0x05 d 0 0 0 ∧
    (s.nDev ≤ d → exec (.dmp d) s = .refused .noSuchDevice) ∧
    ∀ x, s.dev[d]? = some x →
      exec (.dmp d) s = .next { s with log := s.log ++ [{ status := .ok, records := dumpWalk x.mem 65536 0 }] }

/-- The fixed shape of a dump (`40_region_table.md` section 2, which marks it derived): its records, each byte line by its length
alone (every byte written 0), are one fixed list whatever the store holds; so 93 records, 11 names, 6 large markers, 65 byte
lines, 11 blanks; and the dumped bytes are those of 0xFE00..0xFFFF in rising address order. -/
def Obligations.DumpHasItsFixedShape : Prop :=
  ∀ m : Memory,
    (dumpRecords m).map (fun r => match r with | .bytes bs => Record.bytes (bs.map fun _ => 0) | r => r) =
      [.name .rom0, .large, .blank, .name .rom1, .large, .blank, .name .vram, .large, .blank,
        .name .exram, .large, .blank, .name .wram, .large, .blank, .name .echo, .large, .blank] ++
      [.name .oam] ++ List.replicate 20 (.bytes (List.replicate 8 0)) ++ [.blank] ++
      [.name .reserved] ++ List.replicate 12 (.bytes (List.replicate 8 0)) ++ [.blank] ++
      [.name .io] ++ List.replicate 16 (.bytes (List.replicate 8 0)) ++ [.blank] ++
      [.name .hram] ++ List.replicate 15 (.bytes (List.replicate 8 0)) ++ [.bytes (List.replicate 7 0), .blank] ++
      [.name .ie, .bytes [0], .blank] ∧
    (dumpRecords m).length = 93 ∧
    (dumpRecords m).filterMap (fun r => match r with | .name i => some i | _ => none) =
      [.rom0, .rom1, .vram, .exram, .wram, .echo, .oam, .reserved, .io, .hram, .ie] ∧
    ((dumpRecords m).filter fun r => match r with | .large => true | _ => false).length = 6 ∧
    ((dumpRecords m).filter fun r => match r with | .bytes _ => true | _ => false).length = 65 ∧
    ((dumpRecords m).filter fun r => match r with | .blank => true | _ => false).length = 11 ∧
    (dumpRecords m).flatMap (fun r => match r with | .bytes bs => bs | _ => []) =
      (List.range 512).map fun j => m.read (0xFE00 + j)

/-- Rule R125 (the spec's decision D27): DMPIO answers OK with exactly 16 records of 8 bytes, the window 0xFF00..0xFF7F, and changes
nothing but the log. -/
def Obligations.DmpioAttachesSixteenLines : Prop :=
  ∀ (s : State) (d : Nat),
    encode (.dmpio d) = packWord 0x06 d 0 0 0 ∧
    (s.nDev ≤ d → exec (.dmpio d) s = .refused .noSuchDevice) ∧
    ∀ x, s.dev[d]? = some x →
      exec (.dmpio d) s = .next { s with log := s.log ++ [{ status := .ok, records := dumpIoRecords x.mem }] } ∧
      dumpIoRecords x.mem = (List.range 16).map (fun k => Record.bytes
        [x.mem.read (0xFF00 + 8 * k), x.mem.read (0xFF01 + 8 * k), x.mem.read (0xFF02 + 8 * k), x.mem.read (0xFF03 + 8 * k),
         x.mem.read (0xFF04 + 8 * k), x.mem.read (0xFF05 + 8 * k), x.mem.read (0xFF06 + 8 * k),
         x.mem.read (0xFF07 + 8 * k)])

/-- The records DMPIO attaches are the 16 byte lines that DMP attaches for the IO region, between its name and its blank line, on
the same store (`40_region_table.md` section 3, which marks it derived). -/
def Obligations.DmpioLinesAreTheIoLinesOfDmp : Prop :=
  ∀ (s t u : State) (d : Nat), exec (.dmp d) s = .next t → exec (.dmpio d) s = .next u →
    ∃ r q : Response, t.log = s.log ++ [r] ∧ u.log = s.log ++ [q] ∧
      r.records[54]? = some (.name .io) ∧ q.records = (r.records.drop 55).take 16 ∧ r.records[71]? = some .blank

/-- Every name of the IO sub-register table has its address in the IO region, and SERIAL_DATA and SERIAL_CONTROL have 0xFF01 and
0xFF02 (`20_memory.md` section 2, the spec's decision D23; how the OPEN `IO_SUBMAP` is kept inside the region is log entry 10). -/
def Obligations.IoSubRegistersLieInTheIoRegion : Prop :=
  (∀ n : IoName, regionOf (ioAddress n) = some ⟨.io, 0xFF00, 0xFF7F, 0x80⟩) ∧
  ioAddress .serialData = 0xFF01 ∧ ioAddress .serialControl = 0xFF02

/-- Rendered as text each record is one line ended by a line feed, and nothing else ends a line (`40_region_table.md` section 2; the
rendering is the spec's own choice D24 and D26, log entry 14). -/
def Obligations.RenderedDumpHasOneLinePerRecord : Prop :=
  ∀ rs : List Record, (renderDump rs).count (Char.ofNat 10) = rs.length

/-- Rule R65: MRD, CRD, CLS, DMP and DMPIO change no state other than appending their response to the log, and doing one again
returns the same response; and two reads of one location return the same byte whatever else was done between them, as long as
the location holds the same byte (it does where nothing wrote it: the frames of the other statements). -/
def Obligations.ReadsChangeOnlyTheLogAndRepeat : Prop :=
  (∀ (i : Instr) (s t : State),
    ((∃ d a, i = .mrd d a) ∨ (∃ c, i = .crd c) ∨ (∃ a, i = .cls a) ∨ (∃ d, i = .dmp d) ∨ ∃ d, i = .dmpio d) →
    exec i s = .next t →
    ∃ r, t = { s with log := s.log ++ [r] } ∧ exec i t = .next { t with log := t.log ++ [r] }) ∧
  (∀ (s t u : State) (d a : Nat), exec (.mrd d a) s = .next t → u.byte d a = s.byte d a →
    ∃ r, t = { s with log := s.log ++ [r] } ∧ exec (.mrd d a) u = .next { u with log := u.log ++ [r] }) ∧
  ∀ (s t u : State) (c : Nat), exec (.crd c) s = .next t → u.chan[c]? = s.chan[c]? →
    ∃ r, t = { s with log := s.log ++ [r] } ∧ exec (.crd c) u = .next { u with log := u.log ++ [r] }

/-! ### Channels and handles -/

/-- Rule R160 (the spec's decision D13): CNEW creates a live channel of value 0 with identity `next_ch`, which it returns, and sets no
handle; it is refused once 2^16 channels have been created. -/
def Obligations.CnewCreatesAFreshChannel : Prop :=
  ∀ s : State,
    encode .cnew = packWord 0x08 0 0 0 0 ∧
    (s.nextCh = 65536 → exec .cnew s = .refused .channelIdsExhausted) ∧
    (s.nextCh < 65536 →
      ∃ t, exec .cnew s = .next t ∧ t.nextCh = s.nextCh + 1 ∧
        t.chan[s.nextCh]? = some { live := true, value := 0 } ∧ (∀ c, c < s.nextCh → t.chan[c]? = s.chan[c]?) ∧
        t.dev = s.dev ∧ t.port = s.port ∧
        ∃ r : Response, t.log = s.log ++ [r] ∧ r.records = [] ∧ r.word = packWord 0x00 0 s.nextCh 0 0)

/-- Rule R165 (the spec's decision D17): CDEL ends a live channel's lifetime and changes no handle; a channel already dead reports
NO_CABLE_CONNECTED with no change; one never created is refused. -/
def Obligations.CdelEndsTheLifetime : Prop :=
  ∀ (s : State) (c : Nat),
    encode (.cdel c) = packWord 0x09 0 c 0 0 ∧
    (s.nextCh ≤ c → exec (.cdel c) s = .refused .noSuchChannel) ∧
    (∀ v, s.chan[c]? = some { live := false, value := v } →
      exec (.cdel c) s = .next { s with log := s.log ++ [{ status := .noCableConnected }] }) ∧
    ∀ v, s.chan[c]? = some { live := true, value := v } →
      exec (.cdel c) s =
        .next { s with chan := s.chan.set c { live := false, value := v }, log := s.log ++ [{ status := .ok }] }

/-- Rule R170 (the spec's decision D18): CWR overwrites a live channel's value; a dead channel reports NO_CABLE_CONNECTED with no
change; one never created is refused. -/
def Obligations.CwrOverwritesTheLine : Prop :=
  ∀ (s : State) (c : Nat) (v : Byte),
    encode (.cwr c v) = packWord 0x0A 0 c 0 v.toNat ∧
    (s.nextCh ≤ c → exec (.cwr c v) s = .refused .noSuchChannel) ∧
    (∀ old, s.chan[c]? = some { live := false, value := old } →
      exec (.cwr c v) s = .next { s with log := s.log ++ [{ status := .noCableConnected }] }) ∧
    ∀ old, s.chan[c]? = some { live := true, value := old } →
      exec (.cwr c v) s =
        .next { s with chan := s.chan.set c { live := true, value := v }, log := s.log ++ [{ status := .ok }] }

/-- Rule R173 (the spec's decision D18): CRD returns a live channel's value and changes nothing but the log; a dead channel reports
NO_CABLE_CONNECTED with DATA = 0; one never created is refused. -/
def Obligations.CrdSamplesTheLine : Prop :=
  ∀ (s : State) (c : Nat),
    encode (.crd c) = packWord 0x0B 0 c 0 0 ∧
    (s.nextCh ≤ c → exec (.crd c) s = .refused .noSuchChannel) ∧
    (∀ v, s.chan[c]? = some { live := false, value := v } →
      exec (.crd c) s = .next { s with log := s.log ++ [{ status := .noCableConnected, data := 0 }] }) ∧
    ∀ v, s.chan[c]? = some { live := true, value := v } →
      exec (.crd c) s = .next { s with log := s.log ++ [{ status := .ok, data := v }] }

/-- Rule R176 (the spec's decision D15): LNK sets the device's handle, to a live channel with status OK and to a dead one with
NO_CABLE_CONNECTED, and changes no channel, store or other handle; no such device, then no such channel, is refused. -/
def Obligations.LnkSetsTheHandle : Prop :=
  ∀ (s : State) (d c : Nat),
    encode (.lnk d c) = packWord 0x0C d c 0 0 ∧
    (s.nDev ≤ d → exec (.lnk d c) s = .refused .noSuchDevice) ∧
    (d < s.nDev → s.nextCh ≤ c → exec (.lnk d c) s = .refused .noSuchChannel) ∧
    (d < s.nDev → c < s.nextCh →
      ∃ t, exec (.lnk d c) s = .next t ∧ t.handle d = some c ∧ (∀ e, e ≠ d → t.handle e = s.handle e) ∧
        (∀ e a, t.byte e a = s.byte e a) ∧ t.nDev = s.nDev ∧ t.chan = s.chan ∧ t.port = s.port ∧
        t.log = s.log ++ [{ status := if s.isLive c = true then .ok else .noCableConnected }])

/-- Rule R180 (the spec's decision D16): ULK clears the device's handle, always with status OK, and changes no channel, store or other
handle. -/
def Obligations.UlkDropsTheHandle : Prop :=
  ∀ (s : State) (d : Nat),
    encode (.ulk d) = packWord 0x0D d 0 0 0 ∧
    (s.nDev ≤ d → exec (.ulk d) s = .refused .noSuchDevice) ∧
    (d < s.nDev →
      ∃ t, exec (.ulk d) s = .next t ∧ t.handle d = none ∧ (∀ e, e ≠ d → t.handle e = s.handle e) ∧
        (∀ e a, t.byte e a = s.byte e a) ∧ t.nDev = s.nDev ∧ t.chan = s.chan ∧ t.port = s.port ∧
        t.log = s.log ++ [{ status := .ok }])

/-- Rule R161 (the spec's decision D17): a channel is live from the CNEW that created it until the CDEL that ends it, and dead after for
ever: no command makes a dead channel live again. -/
def Obligations.DeadChannelsStayDeadAndLiveOnesLiveUntilCdel : Prop :=
  ∀ (i : Instr) (s t : State) (c : Nat), exec i s = .next t →
    s.nextCh ≤ t.nextCh ∧
    (s.isLive c = true → i ≠ .cdel c → t.isLive c = true) ∧
    (i = .cdel c → t.isLive c = false) ∧
    (c < s.nextCh → s.isLive c = false → t.isLive c = false ∧ t.chan[c]? = s.chan[c]?) ∧
    (i = .cnew → t.isLive s.nextCh = true) ∧
    (i ≠ .cnew → t.nextCh = s.nextCh)

/-- Rule R24: setting, replacing or clearing a handle never changes any channel, ending a channel's lifetime never changes any handle;
a handle changes by LNK and ULK of its device only. -/
def Obligations.HandlesOwnNoChannel : Prop :=
  (∀ (s t : State) (d c : Nat), exec (.lnk d c) s = .next t ∨ exec (.ulk d) s = .next t → t.chan = s.chan) ∧
  (∀ (s t : State) (c : Nat), exec (.cdel c) s = .next t → ∀ d, t.handle d = s.handle d) ∧
  ∀ (i : Instr) (s t : State) (d : Nat), exec i s = .next t → (∀ c, i ≠ .lnk d c) → i ≠ .ulk d →
    t.handle d = s.handle d

/-- Once a handle names a dead channel it stays invalid whatever commands are performed, until LNK or ULK of that device
(`42_channel.md` section 1, which marks it derived). -/
def Obligations.DanglingHandleStaysInvalid : Prop :=
  ∀ (is : List Instr) (s t : State) (d c : Nat), s.handle d = some c → c < s.nextCh → s.isLive c = false →
    (∀ i ∈ is, (∀ c', i ≠ .lnk d c') ∧ i ≠ .ulk d) → runCommands is s = .next t →
    t.handle d = some c ∧ t.validHandle (t.handle d) = false

/-- The channel round trip, seen by the host and by any device whose valid handle names the channel (`42_channel.md` section 3, which
marks it derived): after CWR of `v` and any commands none of which writes the channel's line or ends its lifetime, CRD returns
`v`, and a slave's ADV through a handle to the channel takes `v`. -/
def Obligations.ChannelRoundTrip : Prop :=
  ∀ (is : List Instr) (s t u : State) (c : Nat) (v : Byte), s.isLive c = true → exec (.cwr c v) s = .next t →
    lineKept c is t = true → runCommands is t = .next u →
    exec (.crd c) u = .next { u with log := u.log ++ [{ status := .ok, data := v }] } ∧
    ∀ (d : Nat) (ctl : Byte), u.handle d = some c → u.byte d 0xFF02 = some ctl → ctl ≠ 0xFF →
      ∃ w, exec (.adv d) u = .next w ∧ w.byte d 0xFF01 = some v

/-! ### The serial engine -/

/-- Rules R193, R194, R195 and R196: a master's ADV puts `(current + 1) mod 256` in SERIAL_DATA whatever follows; with a valid handle that
byte is driven onto the channel and the status is OK; else the status is NO_CABLE_CONNECTED and no channel changes. -/
def Obligations.AdvOfAMasterCountsAndSends : Prop :=
  ∀ (s : State) (d : Nat) (cur : Byte), s.byte d 0xFF02 = some 0xFF → s.byte d 0xFF01 = some cur →
    encode (.adv d) = packWord 0x04 d 0 0 0 ∧
    ∃ t next, exec (.adv d) s = .next t ∧ next.toNat = (cur.toNat + 1) % 256 ∧
      (∀ e b, t.byte e b = if e = d ∧ b = 0xFF01 then some next else s.byte e b) ∧
      (∀ e, t.handle e = s.handle e) ∧ t.nDev = s.nDev ∧ t.port = s.port ∧
      (∀ c v, s.handle d = some c → s.chan[c]? = some { live := true, value := v } →
        t.chan = s.chan.set c { live := true, value := next } ∧
        t.log = s.log ++ [{ status := .ok, info := 0x01, data := next }]) ∧
      (s.validHandle (s.handle d) = false →
        t.chan = s.chan ∧ t.log = s.log ++ [{ status := .noCableConnected, info := 0x01, data := next }])

/-- Rules R198 and R200: a slave's ADV with a valid handle puts the channel's value in SERIAL_DATA with status OK; without one it reports
NO_CABLE_CONNECTED and leaves SERIAL_DATA unmodified; no channel changes. -/
def Obligations.AdvOfASlaveReceives : Prop :=
  ∀ (s : State) (d : Nat) (ctl cur : Byte), s.byte d 0xFF02 = some ctl → ctl ≠ 0xFF → s.byte d 0xFF01 = some cur →
    (∀ c v, s.handle d = some c → s.chan[c]? = some { live := true, value := v } →
      ∃ t, exec (.adv d) s = .next t ∧
        (∀ e b, t.byte e b = if e = d ∧ b = 0xFF01 then some v else s.byte e b) ∧
        (∀ e, t.handle e = s.handle e) ∧ t.nDev = s.nDev ∧ t.port = s.port ∧ t.chan = s.chan ∧
        t.log = s.log ++ [{ status := .ok, info := 0x02, data := v }]) ∧
    (s.validHandle (s.handle d) = false →
      exec (.adv d) s =
        .next { s with log := s.log ++ [{ status := .noCableConnected, info := 0x02, data := cur }] })

/-- Rule R191: each ADV reads SERIAL_CONTROL afresh; exactly 0xFF makes the device master for this ADV, any other value slave, whatever
commands came before. -/
def Obligations.RoleIsReadAtEachAdv : Prop :=
  ∀ (is : List Instr) (s t u : State) (d : Nat) (ctl : Byte), runCommands is s = .next t → t.byte d 0xFF02 = some ctl →
    exec (.adv d) t = .next u →
    ∃ r : Response, u.log = t.log ++ [r] ∧ (r.info = 0x01 ↔ ctl = 0xFF) ∧ (r.info = 0x02 ↔ ctl ≠ 0xFF)

/-- ADV writes nothing but SERIAL_DATA, at most the value of the one channel its handle names, and the log
(`43_serial_protocol.md` section 2, which marks it derived). -/
def Obligations.AdvFrame : Prop :=
  ∀ (s t : State) (d : Nat), exec (.adv d) s = .next t →
    (∀ e b, ¬(e = d ∧ b = serialDataAddr) → t.byte e b = s.byte e b) ∧
    (∀ e, t.handle e = s.handle e) ∧ t.nDev = s.nDev ∧ t.nextCh = s.nextCh ∧ (∀ c, t.isLive c = s.isLive c) ∧
    (∀ c, s.handle d ≠ some c → t.chan[c]? = s.chan[c]?) ∧
    (s.byte d 0xFF02 ≠ some 0xFF → t.chan = s.chan)

/-- The transfer state machine, from EVAL when an ADV naming the device arrives back to IDLE, does exactly what ADV's atomic meaning
does (`43_serial_protocol.md` sections 1 and 2; the machine as a definition beside the atomic ADV is this model's reading, log
entry 17). -/
def Obligations.TransferMachineRefinesAdv : Prop :=
  ∀ (s : State) (d : Nat), d < s.nDev →
    ((Transfer.start s).run d 5).phase = .idle ∧ exec (.adv d) s = .next ((Transfer.start s).run d 5).block

/-- Rule R206: a master and a slave sharing a live channel, both advanced in one step. Master first, the slave gets the byte sent in
this step; slave first, it gets the value the channel held before. -/
def Obligations.OrderingContract : Prop :=
  ∀ (s : State) (m v c : Nat) (cur ctl old : Byte),
    s.byte m 0xFF02 = some 0xFF → s.byte m 0xFF01 = some cur → s.byte v 0xFF02 = some ctl → ctl ≠ 0xFF →
    s.handle m = some c → s.handle v = some c → s.chan[c]? = some { live := true, value := old } →
    ∃ t u, runCommands [.adv m, .adv v] s = .next t ∧ runCommands [.adv v, .adv m] s = .next u ∧
      t.byte m 0xFF01 = some (cur + 1) ∧ t.byte v 0xFF01 = some (cur + 1) ∧
      u.byte m 0xFF01 = some (cur + 1) ∧ u.byte v 0xFF01 = some old ∧
      t.chan[c]? = some { live := true, value := cur + 1 } ∧ u.chan[c]? = some { live := true, value := cur + 1 }

/-- The two-device exchange, for any number of steps and any starting byte (`43_serial_protocol.md` section 3): master advanced before
slave on a live channel, after `k` steps master, slave and channel all hold the starting byte plus `k` mod 256. -/
def Obligations.LinkedPairStaysInStep : Prop :=
  ∀ (k : Nat) (s : State) (m v c : Nat) (cur ctl : Byte),
    s.byte m 0xFF02 = some 0xFF → s.byte m 0xFF01 = some cur → s.byte v 0xFF02 = some ctl → ctl ≠ 0xFF →
    s.byte v 0xFF01 = some cur → s.handle m = some c → s.handle v = some c →
    s.chan[c]? = some { live := true, value := cur } →
    ∃ t, runCommands (List.replicate k [Instr.adv m, Instr.adv v]).flatten s = .next t ∧
      t.byte m 0xFF01 = some (cur + BitVec.ofNat 8 k) ∧ t.byte v 0xFF01 = some (cur + BitVec.ofNat 8 k) ∧
      t.chan[c]? = some { live := true, value := cur + BitVec.ofNat 8 k } ∧
      t.log.length = s.log.length + 2 * k

/-- Two masters and a slave on one channel in one step: the slave gets the byte of the last master advanced before it
(`43_serial_protocol.md` section 3, which marks it derived). -/
def Obligations.LastMasterBeforeTheSlaveWins : Prop :=
  ∀ (s : State) (m n v c : Nat) (cur cur' ctl old : Byte), m ≠ n →
    s.byte m 0xFF02 = some 0xFF → s.byte m 0xFF01 = some cur → s.byte n 0xFF02 = some 0xFF →
    s.byte n 0xFF01 = some cur' → s.byte v 0xFF02 = some ctl → ctl ≠ 0xFF →
    s.handle m = some c → s.handle n = some c → s.handle v = some c →
    s.chan[c]? = some { live := true, value := old } →
    ∃ t u, runCommands [.adv m, .adv n, .adv v] s = .next t ∧ t.byte v 0xFF01 = some (cur' + 1) ∧
      runCommands [.adv m, .adv v, .adv n] s = .next u ∧ u.byte v 0xFF01 = some (cur + 1) ∧
      u.chan[c]? = some { live := true, value := cur' + 1 }

/-- The pseudo-instructions do what they are for (`30_encoding.md` section 5, the spec's decision D40): after SETMASTER the device's ADV
acts as master, after SETSLAVE as slave, SETSD then GETSD returns the byte, PAIR links both devices to the new channel, and STEP
performs one ADV of each of its devices in the order written. PAIR's condition as a predicate beside the expansion is this
model's choice (log entry 13). -/
def Obligations.PseudoInstructionsTakeEffect : Prop :=
  (∀ (s : State) (d : Nat), d < s.nDev →
    ∃ t r, runCommands (expand (.setMaster d) ++ [.adv d]) s = .next t ∧ t.log.getLast? = some r ∧ r.info = 0x01) ∧
  (∀ (s : State) (d : Nat), d < s.nDev →
    ∃ t r, runCommands (expand (.setSlave d) ++ [.adv d]) s = .next t ∧ t.log.getLast? = some r ∧ r.info = 0x02) ∧
  (∀ (s : State) (d : Nat) (v : Byte), d < s.nDev →
    ∃ t, runCommands (expand (.setSD d v) ++ expand (.getSD d)) s = .next t ∧
      t.log.getLast? = some { status := .ok, data := v }) ∧
  (∀ (s : State) (a b k : Nat), a < s.nDev → b < s.nDev → s.nextCh < 65536 → pseudoApplies s (.pair a b k) = true →
    ∃ t, runCommands (expand (.pair a b k)) s = .next t ∧ t.handle a = some k ∧ t.handle b = some k ∧ t.isLive k = true) ∧
  (∀ (s : State) (d : Nat) (ds : List Nat), d < s.nDev →
    ∃ t, exec (.adv d) s = .next t ∧ runCommands (expand (.step (d :: ds))) s = runCommands (expand (.step ds)) t) ∧
  ∀ (s : State) (ds : List Nat), (∀ d ∈ ds, d < s.nDev) →
    ∃ t rs, runCommands (expand (.step ds)) s = .next t ∧ t.log = s.log ++ rs ∧ rs.length = ds.length ∧
      (∀ e b, (b ≠ 0xFF01 ∨ e ∉ ds) → t.byte e b = s.byte e b)

/-- A host that keeps the lifetime duty of rule R268 sees no failed transfer: with every handle naming a live channel, an ADV of a device
that has a handle reports OK (`42_channel.md` section 1, `43_serial_protocol.md` sections 1 and 2, `70_reset_and_hazards.md`
section 3; the duty as a predicate on states is this model's, log entry 20). -/
def Obligations.LiveHandlesNeverFail : Prop :=
  ∀ (s : State) (d c : Nat), s.handlesLive = true → s.handle d = some c →
    ∃ t r, exec (.adv d) s = .next t ∧ t.log = s.log ++ [r] ∧ r.status = .ok ∧ t.handlesLive = true
end

