-- ==== Sys2Proof/Laws/Encoding.lean ====
section
/-! SUPPORT. The five fields of a packed word are the values it was packed from, and a word is its five fields. -/

namespace Sys2Proof

theorem field56_toNat (w : Word) : (field56 w).toNat = w.toNat / 2 ^ 56 := by
  have := w.isLt
  simp only [field56, BitVec.extractLsb'_toNat, Nat.shiftRight_eq_div_pow]
  omega

theorem field48_toNat (w : Word) : (field48 w).toNat = w.toNat / 2 ^ 48 % 2 ^ 8 := by
  simp only [field48, BitVec.extractLsb'_toNat, Nat.shiftRight_eq_div_pow]

theorem field32_toNat (w : Word) : (field32 w).toNat = w.toNat / 2 ^ 32 % 2 ^ 16 := by
  simp only [field32, BitVec.extractLsb'_toNat, Nat.shiftRight_eq_div_pow]

theorem field8_toNat (w : Word) : (field8 w).toNat = w.toNat / 2 ^ 8 % 2 ^ 24 := by
  simp only [field8, BitVec.extractLsb'_toNat, Nat.shiftRight_eq_div_pow]

theorem field0_toNat (w : Word) : (field0 w).toNat = w.toNat % 2 ^ 8 := by
  simp only [field0, BitVec.extractLsb'_toNat, Nat.shiftRight_eq_div_pow, Nat.pow_zero, Nat.div_one]

/-- A word is packed from its own five fields. -/
theorem packWord_fields (w : Word) :
    packWord (field56 w).toNat (field48 w).toNat (field32 w).toNat (field8 w).toNat (field0 w).toNat = w := by
  apply BitVec.eq_of_toNat_eq
  have := w.isLt
  rw [field56_toNat, field48_toNat, field32_toNat, field8_toNat, field0_toNat]
  simp only [packWord, BitVec.toNat_ofNat]
  omega

section pack

variable {p q r t u : Nat} (hp : p < 256) (hq : q < 256) (hr : r < 65536) (ht : t < 16777216) (hu : u < 256)

include hp hq hr ht hu

theorem packWord_toNat : (packWord p q r t u).toNat = p * 2 ^ 56 + q * 2 ^ 48 + r * 2 ^ 32 + t * 2 ^ 8 + u := by
  simp only [packWord, BitVec.toNat_ofNat]
  omega

theorem field56_pack : (field56 (packWord p q r t u)).toNat = p := by
  rw [field56_toNat, packWord_toNat hp hq hr ht hu]
  omega

theorem field48_pack : (field48 (packWord p q r t u)).toNat = q := by
  rw [field48_toNat, packWord_toNat hp hq hr ht hu]
  omega

theorem field32_pack : (field32 (packWord p q r t u)).toNat = r := by
  rw [field32_toNat, packWord_toNat hp hq hr ht hu]
  omega

theorem field8_pack : (field8 (packWord p q r t u)).toNat = t := by
  rw [field8_toNat, packWord_toNat hp hq hr ht hu]
  omega

theorem field0_pack : (field0 (packWord p q r t u)).toNat = u := by
  rw [field0_toNat, packWord_toNat hp hq hr ht hu]
  omega

end pack

/-- An opcode fits the OP byte. -/
theorem Opcode.code_lt (k : Opcode) : k.code < 256 := by
  cases k <;> decide

/-- `ofCode` gives the opcode whose code it is. -/
theorem Opcode.ofCode_eq_some {b : Nat} {k : Opcode} : Opcode.ofCode b = some k ↔ k.code = b := by
  constructor
  · intro h
    simpa using List.find?_some h
  · rintro rfl
    cases k <;> rfl

/-- The decoder reads a word by its five fields. -/
theorem decode_of_fields {w : Word} {k : Opcode} {d c a : Nat} (h1 : (field56 w).toNat = k.code)
    (h2 : (field48 w).toNat = d) (h3 : (field32 w).toNat = c) (h4 : (field8 w).toNat = a) :
    decode w = decodeFields k d c a (field0 w) := by
  unfold decode
  rw [h1, h2, h3, h4, Opcode.ofCode_eq_some.mpr rfl]

/-- The decoder on a packed word: the command of its fields. -/
theorem decode_packWord (k : Opcode) {d c a : Nat} (v : Byte) (hd : d < 256) (hc : c < 65536) (ha : a < 16777216) :
    decode (packWord k.code d c a v.toNat) = decodeFields k d c a v := by
  have h0 := k.code_lt
  have hv := v.isLt
  have hf : field0 (packWord k.code d c a v.toNat) = v := BitVec.eq_of_toNat_eq (field0_pack h0 hd hc ha hv)
  exact (decode_of_fields (field56_pack h0 hd hc ha hv) (field48_pack h0 hd hc ha hv) (field32_pack h0 hd hc ha hv)
    (field8_pack h0 hd hc ha hv)).trans (congrArg _ hf)

/-- What `acceptIf` accepts. -/
theorem acceptIf_command {b : Bool} {i j : Instr} (h : acceptIf b i = .command j) : b = true ∧ i = j := by
  unfold acceptIf at h
  split at h
  · next hb => exact ⟨hb, DecodeResult.command.inj h⟩
  · cases h

/-- A word that decodes has the command's opcode in its OP byte, and its fields give the command. -/
theorem decode_command {w : Word} {i : Instr} (h : decode w = .command i) :
    (field56 w).toNat = i.opcode.code ∧
    decodeFields i.opcode (field48 w).toNat (field32 w).toNat (field8 w).toNat (field0 w) = .command i := by
  unfold decode at h
  split at h
  · cases h
  · next k hk =>
    have hk := Opcode.ofCode_eq_some.mp hk
    have : i.opcode = k := by
      unfold decodeFields at h
      cases k <;> (obtain ⟨_, rfl⟩ := acceptIf_command h; rfl)
    rw [this]
    exact ⟨hk.symm, h⟩

end Sys2Proof
end

