-- ==== Sys2Proof/Laws/Memory.lean ====
section
/-! SUPPORT. The laws of a store: a read after a write, the canonical form that every operation keeps, and that the canonical
form makes equal stores equal data. -/

namespace Sys2Proof.Machine

namespace Memory

@[simp] theorem read_nil (a : Nat) : Memory.read [] a = unlisted := rfl

theorem read_cons (k : Nat) (b : Byte) (m : Memory) (a : Nat) :
    Memory.read ((k, b) :: m) a = if k = a then b else Memory.read m a := rfl

theorem remove_cons (k : Nat) (b : Byte) (m : Memory) (a : Nat) :
    Memory.remove ((k, b) :: m) a = if k = a then Memory.remove m a else (k, b) :: Memory.remove m a := by
  by_cases h : k = a <;> simp [Memory.remove, h]

theorem read_remove_same (m : Memory) (a : Nat) : (m.remove a).read a = unlisted := by
  induction m with
  | nil => rfl
  | cons cell m ih =>
    obtain ⟨k, b⟩ := cell
    rw [remove_cons]
    split
    · exact ih
    · next h => rw [read_cons, if_neg h, ih]

theorem read_remove_other (m : Memory) {a a' : Nat} (h : a' ≠ a) : (m.remove a).read a' = m.read a' := by
  induction m with
  | nil => rfl
  | cons cell m ih =>
    obtain ⟨k, b⟩ := cell
    rw [remove_cons, read_cons]
    split
    · next hk => rw [if_neg (by omega), ih]
    · rw [read_cons, ih]

theorem read_insertCell_same (m : Memory) (a : Nat) (v : Byte) (h : ∀ cell ∈ m, cell.1 ≠ a) :
    (m.insertCell a v).read a = v := by
  induction m with
  | nil => simp [Memory.insertCell, Memory.read]
  | cons cell m ih =>
    obtain ⟨k, b⟩ := cell
    have hk : k ≠ a := h (k, b) (by simp)
    simp only [Memory.insertCell]
    split
    · simp [Memory.read]
    · rw [read_cons, if_neg hk, ih fun c hc => h c (by simp [hc])]

theorem read_insertCell_other (m : Memory) {a a' : Nat} (v : Byte) (h : a' ≠ a) :
    (m.insertCell a v).read a' = m.read a' := by
  induction m with
  | nil => simp [Memory.insertCell, Memory.read, Ne.symm h]
  | cons cell m ih =>
    obtain ⟨k, b⟩ := cell
    simp only [Memory.insertCell]
    split
    · rw [read_cons, if_neg (Ne.symm h)]
    · rw [read_cons, read_cons, ih]

theorem not_mem_remove (m : Memory) (a : Nat) : ∀ cell ∈ m.remove a, cell.1 ≠ a := by
  intro cell hc
  simpa using (List.mem_filter.mp hc).2

/-- A read after a write to the same address gives the value written. -/
@[simp] theorem read_write_same (m : Memory) (a : Nat) (v : Byte) : (m.write a v).read a = v := by
  unfold Memory.write
  split
  · next h => rw [read_remove_same, h]
  · exact read_insertCell_same _ _ _ (not_mem_remove m a)

/-- A write leaves every other address alone. -/
theorem read_write_other (m : Memory) {a a' : Nat} (v : Byte) (h : a' ≠ a) : (m.write a v).read a' = m.read a' := by
  unfold Memory.write
  split
  · exact read_remove_other m h
  · rw [read_insertCell_other _ v h, read_remove_other m h]

theorem read_write (m : Memory) (a a' : Nat) (v : Byte) :
    (m.write a v).read a' = if a' = a then v else m.read a' := by
  split
  · next h => rw [h, read_write_same]
  · next h => exact read_write_other m v h

theorem wf_nil : Memory.wf [] := ⟨List.Pairwise.nil, by simp⟩

theorem wf_remove {m : Memory} (a : Nat) (h : m.wf) : (m.remove a).wf :=
  ⟨h.1.filter _, fun cell hc => h.2 cell (List.mem_filter.mp hc).1⟩

theorem mem_insertCell {m : Memory} {a : Nat} {v : Byte} {cell : Host.Cell} (h : cell ∈ m.insertCell a v) :
    cell = (a, v) ∨ cell ∈ m := by
  induction m with
  | nil => simpa [Memory.insertCell] using h
  | cons c m ih =>
    obtain ⟨k, b⟩ := c
    simp only [Memory.insertCell] at h
    split at h
    · simpa using h
    · rcases List.mem_cons.mp h with h | h
      · exact .inr (by simp [h])
      · exact (ih h).imp_right fun h => by simp [h]

theorem wf_insertCell {m : Memory} {a : Nat} {v : Byte} (h : m.wf) (hm : ∀ cell ∈ m, cell.1 ≠ a) (ha : a < storeSize)
    (hv : v ≠ unlisted) : (m.insertCell a v).wf := by
  refine ⟨?_, fun cell hc => ?_⟩
  · have hs := h.1
    clear h
    induction m with
    | nil => simp [Memory.insertCell]
    | cons c m ih =>
      obtain ⟨k, b⟩ := c
      have hk : k ≠ a := hm (k, b) (by simp)
      obtain ⟨h1, h2⟩ := List.pairwise_cons.mp hs
      simp only [Memory.insertCell]
      split
      · next hlt =>
        refine List.pairwise_cons.mpr ⟨fun c hc => ?_, hs⟩
        rcases List.mem_cons.mp hc with rfl | hc
        · exact hlt
        · exact Nat.lt_trans hlt (h1 c hc)
      · next hlt =>
        refine List.pairwise_cons.mpr ⟨fun c hc => ?_, ih (fun c hc => hm c (by simp [hc])) h2⟩
        rcases mem_insertCell hc with rfl | hc
        · show k < a
          omega
        · exact h1 c hc
  · rcases mem_insertCell hc with rfl | hc
    · exact ⟨ha, hv⟩
    · exact h.2 cell hc

/-- A write inside the store keeps the canonical form. -/
theorem wf_write {m : Memory} {a : Nat} (v : Byte) (h : m.wf) (ha : a < storeSize) : (m.write a v).wf := by
  unfold Memory.write
  split
  · exact wf_remove a h
  · next hv => exact wf_insertCell (wf_remove a h) (not_mem_remove m a) ha hv

theorem cellsFrom_ge (f : BitVec 16 → Byte) (n a : Nat) : ∀ cell ∈ cellsFrom f n a, a ≤ cell.1 ∧ cell.1 < a + n := by
  induction n generalizing a with
  | zero => simp [cellsFrom]
  | succ n ih =>
    intro cell hc
    simp only [cellsFrom] at hc
    split at hc
    · have := ih (a + 1) cell hc
      omega
    · rcases List.mem_cons.mp hc with rfl | hc
      · exact ⟨Nat.le_refl a, by show a < a + (n + 1); omega⟩
      · have := ih (a + 1) cell hc
        omega

theorem wf_cellsFrom (f : BitVec 16 → Byte) (n a : Nat) (h : a + n ≤ storeSize) : (cellsFrom f n a).wf := by
  induction n generalizing a with
  | zero => exact wf_nil
  | succ n ih =>
    have ih := ih (a + 1) (by omega)
    simp only [cellsFrom]
    split
    · exact ih
    · next hv =>
      refine ⟨List.pairwise_cons.mpr ⟨fun c hc => (cellsFrom_ge f n (a + 1) c hc).1, ih.1⟩, fun c hc => ?_⟩
      rcases List.mem_cons.mp hc with rfl | hc
      · exact ⟨by show a < storeSize; omega, hv⟩
      · exact ih.2 c hc

/-- The store at reset is in canonical form. -/
theorem wf_ofInit (f : BitVec 16 → Byte) : (ofInit f).wf := wf_cellsFrom f storeSize 0 (by omega)

theorem read_cellsFrom (f : BitVec 16 → Byte) (n a k : Nat) (h1 : a ≤ k) (h2 : k < a + n) :
    (cellsFrom f n a).read k = f (BitVec.ofNat 16 k) := by
  induction n generalizing a with
  | zero => omega
  | succ n ih =>
    simp only [cellsFrom]
    by_cases hk : a = k
    · subst hk
      split
      · next h0 =>
        have : ∀ m : Memory, (∀ c ∈ m, a + 1 ≤ c.1) → m.read a = unlisted := by
          intro m hm
          induction m with
          | nil => rfl
          | cons c m ihm =>
            obtain ⟨q, b⟩ := c
            have : a + 1 ≤ q := hm (q, b) (by simp)
            rw [read_cons, if_neg (by omega), ihm fun c hc => hm c (by simp [hc])]
        rw [this _ fun c hc => (cellsFrom_ge f n (a + 1) c hc).1, h0]
      · simp [Memory.read]
    · split
      · exact ih (a + 1) (by omega) (by omega)
      · rw [read_cons, if_neg hk, ih (a + 1) (by omega) (by omega)]

/-- At reset the byte at each address of the store is what `MEM_INIT` gives it. -/
theorem read_ofInit (f : BitVec 16 → Byte) (a : Nat) (h : a < storeSize) :
    (ofInit f).read a = f (BitVec.ofNat 16 a) := read_cellsFrom f storeSize 0 a (Nat.zero_le a) (by omega)

theorem read_of_lt {m : Memory} {k a : Nat} (hm : ∀ c ∈ m, k < c.1) (ha : a ≤ k) : m.read a = unlisted := by
  induction m with
  | nil => rfl
  | cons c m ih =>
    obtain ⟨q, b⟩ := c
    have : k < q := hm (q, b) (by simp)
    rw [read_cons, if_neg (by omega), ih fun c hc => hm c (by simp [hc])]

/-- Canonical stores that read alike are equal data. -/
theorem eq_of_read {m m' : Memory} (h : m.wf) (h' : m'.wf) (hr : ∀ a, m.read a = m'.read a) : m = m' := by
  induction m generalizing m' with
  | nil =>
    cases m' with
    | nil => rfl
    | cons c' m' =>
      obtain ⟨k, b⟩ := c'
      have := hr k
      rw [read_cons, if_pos rfl] at this
      exact absurd this.symm (h'.2 (k, b) (by simp)).2
  | cons c m ih =>
    obtain ⟨k, b⟩ := c
    obtain ⟨hs, hc⟩ := h
    obtain ⟨hlt, hs⟩ := List.pairwise_cons.mp hs
    have hb : b ≠ unlisted := (hc (k, b) (by simp)).2
    cases m' with
    | nil =>
      have := hr k
      rw [read_cons, if_pos rfl] at this
      exact absurd this hb
    | cons c' m' =>
      obtain ⟨k', b'⟩ := c'
      obtain ⟨hs', hc'⟩ := h'
      obtain ⟨hlt', hs2⟩ := List.pairwise_cons.mp hs'
      have hb' : b' ≠ unlisted := (hc' (k', b') (by simp)).2
      have hk : k = k' := by
        rcases Nat.lt_trichotomy k k' with hkk | hkk | hkk
        · have := hr k
          rw [read_cons, if_pos rfl, read_cons, if_neg (by omega), read_of_lt hlt' (by omega)] at this
          exact absurd this hb
        · exact hkk
        · have := hr k'
          rw [read_cons, if_neg (by omega), read_of_lt hlt (by omega), read_cons, if_pos rfl] at this
          exact absurd this.symm hb'
      subst hk
      have hbb : b = b' := by simpa [read_cons] using hr k
      subst hbb
      congr 1
      refine ih ⟨hs, fun c hm => hc c (by simp [hm])⟩ ⟨hs2, fun c hm => hc' c (by simp [hm])⟩ fun a => ?_
      by_cases ha : k = a
      · subst ha
        rw [read_of_lt hlt (Nat.le_refl k), read_of_lt hlt' (Nat.le_refl k)]
      · simpa [read_cons, ha] using hr a

end Memory

end Sys2Proof.Machine
end

