-- ==== Sys2Proof/Laws/State.lean ====
section
/-! SUPPORT. What each named update of the state does to each field: one lemma per field per update. -/

namespace Sys2Proof.Machine

variable (s : State) (d c : Nat) (x : Device) (ch : Channel) (r : Response) (a : Nat) (v : Byte) (h : Option Nat)

@[simp] theorem State.setDev_dev : (s.setDev d x).dev = s.dev.set d x := rfl
@[simp] theorem State.setDev_chan : (s.setDev d x).chan = s.chan := rfl
@[simp] theorem State.setDev_log : (s.setDev d x).log = s.log := rfl
@[simp] theorem State.setDev_port : (s.setDev d x).port = s.port := rfl

@[simp] theorem State.setChan_dev : (s.setChan c ch).dev = s.dev := rfl
@[simp] theorem State.setChan_chan : (s.setChan c ch).chan = s.chan.set c ch := rfl
@[simp] theorem State.setChan_log : (s.setChan c ch).log = s.log := rfl
@[simp] theorem State.setChan_port : (s.setChan c ch).port = s.port := rfl

@[simp] theorem State.addChan_dev : (s.addChan ch).dev = s.dev := rfl
@[simp] theorem State.addChan_chan : (s.addChan ch).chan = s.chan ++ [ch] := rfl
@[simp] theorem State.addChan_log : (s.addChan ch).log = s.log := rfl
@[simp] theorem State.addChan_port : (s.addChan ch).port = s.port := rfl

@[simp] theorem State.respond_dev : (s.respond r).dev = s.dev := rfl
@[simp] theorem State.respond_chan : (s.respond r).chan = s.chan := rfl
@[simp] theorem State.respond_log : (s.respond r).log = s.log ++ [r] := rfl
@[simp] theorem State.respond_port : (s.respond r).port = s.port := rfl

@[simp] theorem Device.store_mem : (x.store a v).mem = x.mem.write a v := rfl
@[simp] theorem Device.store_hdl : (x.store a v).hdl = x.hdl := rfl
@[simp] theorem Device.setHandle_mem : (x.setHandle h).mem = x.mem := rfl
@[simp] theorem Device.setHandle_hdl : (x.setHandle h).hdl = h := rfl

@[simp] theorem State.nDev_setDev : (s.setDev d x).nDev = s.nDev := by simp [State.nDev]
@[simp] theorem State.nDev_setChan : (s.setChan c ch).nDev = s.nDev := rfl
@[simp] theorem State.nDev_addChan : (s.addChan ch).nDev = s.nDev := rfl
@[simp] theorem State.nDev_respond : (s.respond r).nDev = s.nDev := rfl

@[simp] theorem State.nextCh_setDev : (s.setDev d x).nextCh = s.nextCh := rfl
@[simp] theorem State.nextCh_setChan : (s.setChan c ch).nextCh = s.nextCh := by simp [State.nextCh]
@[simp] theorem State.nextCh_addChan : (s.addChan ch).nextCh = s.nextCh + 1 := by simp [State.nextCh]
@[simp] theorem State.nextCh_respond : (s.respond r).nextCh = s.nextCh := rfl

end Sys2Proof.Machine
end

