-- ==== Sys2Proof/Laws/Ops.lean ====
section
/-! SUPPORT. One lemma per shared operation that says once everything it can do: operands, channels, handles, the counter,
the port. -/

namespace Sys2Proof.Machine

/-- Every IO sub-register lies in the IO region (rule R58). -/
theorem ioAddress_bounds (n : IoName) : 0xFF00 ≤ ioAddress n ∧ ioAddress n ≤ 0xFF7F := by
  cases n with
  | serialData => decide
  | serialControl => decide
  | other r =>
    have := (Config.ioSubmap r).isLt
    simp only [ioAddress, ioStart]
    omega

/-- What a command on a device operand can answer. -/
theorem withDevice_next {s t : State} {d : Nat} {k : Device → Result} (h : withDevice s d k = .next t) :
    ∃ x, s.dev[d]? = some x ∧ k x = .next t := by
  unfold withDevice at h
  split at h
  · cases h
  · next x hx => exact ⟨x, hx, h⟩

theorem withDevice_some {s : State} {d : Nat} {k : Device → Result} {x : Device} (h : s.dev[d]? = some x) :
    withDevice s d k = k x := by
  simp only [withDevice, h]

theorem withDevice_none {s : State} {d : Nat} {k : Device → Result} (h : s.nDev ≤ d) :
    withDevice s d k = .refused .noSuchDevice := by
  simp only [withDevice, List.getElem?_eq_none (show s.dev.length ≤ d from h)]

/-- What a command on a channel operand can answer. -/
theorem withChannel_next {s t : State} {c : Nat} {k : Channel → Result} (h : withChannel s c k = .next t) :
    ∃ ch, s.chan[c]? = some ch ∧ k ch = .next t := by
  unfold withChannel at h
  split at h
  · cases h
  · next x hx => exact ⟨x, hx, h⟩

theorem withChannel_some {s : State} {c : Nat} {k : Channel → Result} {ch : Channel} (h : s.chan[c]? = some ch) :
    withChannel s c k = k ch := by
  simp only [withChannel, h]

theorem withChannel_none {s : State} {c : Nat} {k : Channel → Result} (h : s.nextCh ≤ c) :
    withChannel s c k = .refused .noSuchChannel := by
  simp only [withChannel, List.getElem?_eq_none (show s.chan.length ≤ c from h)]

theorem State.dev_some_of_lt {s : State} {d : Nat} (h : d < s.nDev) : ∃ x, s.dev[d]? = some x :=
  ⟨s.dev[d]'h, List.getElem?_eq_getElem h⟩

theorem State.lt_nDev_of_some {s : State} {d : Nat} {x : Device} (h : s.dev[d]? = some x) : d < s.nDev :=
  (List.getElem?_eq_some_iff.mp h).1

theorem State.chan_some_of_lt {s : State} {c : Nat} (h : c < s.nextCh) : ∃ ch, s.chan[c]? = some ch :=
  ⟨s.chan[c]'h, List.getElem?_eq_getElem h⟩

theorem State.lt_nextCh_of_some {s : State} {c : Nat} {ch : Channel} (h : s.chan[c]? = some ch) : c < s.nextCh :=
  (List.getElem?_eq_some_iff.mp h).1

/-- A valid handle names a live channel of the pool, and gives that channel's record. -/
theorem State.cable_eq_some {s : State} {h : Option Nat} {c : Nat} {ch : Channel} :
    s.cable h = some (c, ch) ↔ h = some c ∧ s.chan[c]? = some ch ∧ ch.live = true := by
  constructor
  · intro hc
    unfold State.cable at hc
    split at hc
    · cases hc
    · split at hc
      · next c' ch' hch =>
        split at hc
        · next hl =>
          cases hc
          exact ⟨rfl, hch, hl⟩
        · cases hc
      · cases hc
  · rintro ⟨rfl, hch, hl⟩
    simp only [State.cable, hch, hl, if_true]

/-- The cable depends on the pool alone. -/
theorem State.cable_congr {s t : State} (h : t.chan = s.chan) (o : Option Nat) : t.cable o = s.cable o := by
  unfold State.cable
  rw [h]

/-- The master's counter is `(current + 1) mod 256`. -/
theorem masterNext_toNat (b : Byte) : (masterNext b).toNat = (b.toNat + 1) % 256 := by
  unfold masterNext
  split
  · next h => subst h; rfl
  · simp

theorem storeAddr_eq_some {a b : Nat} : storeAddr a = some b ↔ a = b ∧ a ≤ 0xFFFF := by
  unfold storeAddr writeLimit
  split <;> simp <;> omega

theorem takeCommand_cons {s : State} {w : Word} {ws : List Word} (h : s.port = w :: ws) :
    s.takeCommand = some (w, { s with port := ws }) := by
  simp only [State.takeCommand, h]

theorem takeCommand_nil {s : State} (h : s.port = []) : s.takeCommand = none := by
  simp only [State.takeCommand, h]

/-- What one step can be: nothing, when no command is issued; else the meaning of the word's command on the state without
that word. -/
theorem step_next {s t : State} (h : step s = .next t) :
    (s.port = [] ∧ t = s) ∨
    ∃ w ws i, s.port = w :: ws ∧ decode w = .command i ∧ exec i { s with port := ws } = .next t := by
  unfold step at h
  cases hp : s.port with
  | nil =>
    rw [takeCommand_nil hp] at h
    cases h
    exact .inl ⟨rfl, rfl⟩
  | cons w ws =>
    rw [takeCommand_cons hp] at h
    simp only [performWord] at h
    split at h
    · cases h
    · next i hi => exact .inr ⟨w, ws, i, rfl, hi, h⟩

end Sys2Proof.Machine
end

