-- ==== Sys2Proof/Laws/Exec.lean ====
section
/-! SUPPORT. What a command can do to the state, said once: `exec_next` gives, for a command that is not refused, its effect and the
one response it appends. Invariants and frames follow by cases on the effect. -/

namespace Sys2Proof.Machine

/-- The effects of the commands on everything but the log. -/
inductive Effect (s : State) : Instr → State → Prop where
  | unchanged (i : Instr) (h1 : i ≠ .cnew) (h2 : ∀ d c, i ≠ .lnk d c) (h3 : ∀ d, i ≠ .ulk d)
      (h4 : ∀ c, i = .cdel c → s.isLive c = false) : Effect s i s
  | store (d : Nat) (x : Device) (a : Nat) (v : Byte) (hx : s.dev[d]? = some x) (ha : a ≤ 0xFFFF) :
      Effect s (.mwr d a v) (s.setDev d (x.store a v))
  | count (d : Nat) (x : Device) (v : Byte) (hx : s.dev[d]? = some x) :
      Effect s (.adv d) (s.setDev d (x.store serialDataAddr v))
  | send (d : Nat) (x : Device) (v : Byte) (c : Nat) (ch : Channel) (hx : s.dev[d]? = some x)
      (hr : x.role = .master) (hc : s.cable x.hdl = some (c, ch)) :
      Effect s (.adv d) ((s.setDev d (x.store serialDataAddr v)).setChan c { ch with value := v })
  | create (hn : s.nextCh < Config.maxChannels) : Effect s .cnew (s.addChan { live := true, value := 0 })
  | endLife (c : Nat) (ch : Channel) (hc : s.chan[c]? = some ch) (hl : ch.live = true) :
      Effect s (.cdel c) (s.setChan c { ch with live := false })
  | drive (c : Nat) (v : Byte) (ch : Channel) (hc : s.chan[c]? = some ch) (hl : ch.live = true) :
      Effect s (.cwr c v) (s.setChan c { ch with value := v })
  | link (d c : Nat) (x : Device) (ch : Channel) (hx : s.dev[d]? = some x) (hc : s.chan[c]? = some ch) :
      Effect s (.lnk d c) (s.setDev d (x.setHandle (some c)))
  | unlink (d : Nat) (x : Device) (hx : s.dev[d]? = some x) : Effect s (.ulk d) (s.setDev d (x.setHandle none))

theorem isLive_of_some {s : State} {c : Nat} {ch : Channel} (h : s.chan[c]? = some ch) : s.isLive c = ch.live := by
  simp only [State.isLive, h]

/-- Everything a command that is not refused can do. -/
theorem exec_next {i : Instr} {s t : State} (h : exec i s = .next t) :
    ∃ s' r, t = s'.respond r ∧ Effect s i s' := by
  cases i with
  | mrd d a =>
    obtain ⟨x, hx, h⟩ := withDevice_next h
    split at h <;> cases h <;> exact ⟨s, _, rfl, .unchanged _ (by simp) (by simp) (by simp) (by simp)⟩
  | mwr d a v =>
    obtain ⟨x, hx, h⟩ := withDevice_next h
    split at h <;> cases h
    · exact ⟨s, _, rfl, .unchanged _ (by simp) (by simp) (by simp) (by simp)⟩
    · next a' ha =>
      obtain ⟨rfl, hle⟩ := storeAddr_eq_some.mp ha
      exact ⟨_, _, rfl, .store d x a v hx hle⟩
  | cls a => cases h; exact ⟨s, _, rfl, .unchanged _ (by simp) (by simp) (by simp) (by simp)⟩
  | adv d =>
    obtain ⟨x, hx, h⟩ := withDevice_next h
    cases h
    unfold serialStep
    split
    · next hr =>
      unfold masterStep
      dsimp only
      split
      · next c ch hc => exact ⟨_, _, rfl, .send d x _ c ch hx hr hc⟩
      · exact ⟨_, _, rfl, .count d x _ hx⟩
    · unfold slaveStep
      split
      · exact ⟨_, _, rfl, .count d x _ hx⟩
      · exact ⟨s, _, rfl, .unchanged _ (by simp) (by simp) (by simp) (by simp)⟩
  | dmp d =>
    obtain ⟨x, hx, h⟩ := withDevice_next h
    cases h
    exact ⟨s, _, rfl, .unchanged _ (by simp) (by simp) (by simp) (by simp)⟩
  | dmpio d =>
    obtain ⟨x, hx, h⟩ := withDevice_next h
    cases h
    exact ⟨s, _, rfl, .unchanged _ (by simp) (by simp) (by simp) (by simp)⟩
  | cnew =>
    simp only [exec, execCnew] at h
    split at h
    · next hn => cases h; exact ⟨_, _, rfl, .create hn⟩
    · cases h
  | cdel c =>
    obtain ⟨ch, hc, h⟩ := withChannel_next h
    cases h
    by_cases hl : ch.live = true
    · exact ⟨s.setChan c { ch with live := false }, _, by rw [if_pos hl], .endLife c ch hc hl⟩
    · refine ⟨s, _, by rw [if_neg hl], .unchanged _ (by simp) (by simp) (by simp) fun c' hc' => ?_⟩
      cases hc'
      simpa [isLive_of_some hc] using hl
  | cwr c v =>
    obtain ⟨ch, hc, h⟩ := withChannel_next h
    cases h
    by_cases hl : ch.live = true
    · exact ⟨s.setChan c { ch with value := v }, _, by rw [if_pos hl], .drive c v ch hc hl⟩
    · exact ⟨s, _, by rw [if_neg hl], .unchanged _ (by simp) (by simp) (by simp) (by simp)⟩
  | crd c =>
    obtain ⟨ch, hc, h⟩ := withChannel_next h
    cases h
    exact ⟨s, _, rfl, .unchanged _ (by simp) (by simp) (by simp) (by simp)⟩
  | lnk d c =>
    obtain ⟨x, hx, h⟩ := withDevice_next h
    obtain ⟨ch, hc, h⟩ := withChannel_next h
    cases h
    exact ⟨_, _, rfl, .link d c x ch hx hc⟩
  | ulk d =>
    obtain ⟨x, hx, h⟩ := withDevice_next h
    cases h
    exact ⟨_, _, rfl, .unlink d x hx⟩

/-- One byte of a state whose device `d` was replaced. -/
theorem State.byte_setDev {s : State} {d : Nat} {x : Device} (y : Device) (hx : s.dev[d]? = some x) (e b : Nat) :
    (s.setDev d y).byte e b = if e = d then some (y.mem.read b) else s.byte e b := by
  have hlt := (List.getElem?_eq_some_iff.mp hx).1
  by_cases h : e = d
  · subst h
    simp [State.byte, hlt]
  · simp [State.byte, List.getElem?_set_ne (Ne.symm h), h]

/-- One handle of a state whose device `d` was replaced. -/
theorem State.handle_setDev {s : State} {d : Nat} {x : Device} (y : Device) (hx : s.dev[d]? = some x) (e : Nat) :
    (s.setDev d y).handle e = if e = d then y.hdl else s.handle e := by
  have hlt := (List.getElem?_eq_some_iff.mp hx).1
  by_cases h : e = d
  · subst h
    simp [State.handle, hlt]
  · simp [State.handle, List.getElem?_set_ne (Ne.symm h), h]

@[simp] theorem State.byte_setChan (s : State) (c : Nat) (ch : Channel) (e b : Nat) :
    (s.setChan c ch).byte e b = s.byte e b := rfl
@[simp] theorem State.byte_addChan (s : State) (ch : Channel) (e b : Nat) : (s.addChan ch).byte e b = s.byte e b := rfl
@[simp] theorem State.byte_respond (s : State) (r : Response) (e b : Nat) : (s.respond r).byte e b = s.byte e b := rfl
@[simp] theorem State.handle_setChan (s : State) (c : Nat) (ch : Channel) (e : Nat) :
    (s.setChan c ch).handle e = s.handle e := rfl
@[simp] theorem State.handle_addChan (s : State) (ch : Channel) (e : Nat) : (s.addChan ch).handle e = s.handle e := rfl
@[simp] theorem State.handle_respond (s : State) (r : Response) (e : Nat) : (s.respond r).handle e = s.handle e := rfl

/-- One byte after a store into device `d`. -/
theorem State.byte_store {s : State} {d : Nat} {x : Device} (a : Nat) (v : Byte) (hx : s.dev[d]? = some x) (e b : Nat) :
    (s.setDev d (x.store a v)).byte e b = if e = d ∧ b = a then some v else s.byte e b := by
  rw [State.byte_setDev _ hx, Device.store_mem, Memory.read_write]
  by_cases he : e = d
  · subst he
    by_cases hb : b = a
    · simp [hb]
    · simp [hb, State.byte, hx]
  · simp [he]

/-- A store changes no handle. -/
theorem State.handle_store {s : State} {d : Nat} {x : Device} (a : Nat) (v : Byte) (hx : s.dev[d]? = some x) (e : Nat) :
    (s.setDev d (x.store a v)).handle e = s.handle e := by
  rw [State.handle_setDev _ hx]
  split
  · next h => subst h; simp [State.handle, hx]
  · rfl

theorem State.byte_of_dev {s : State} {d : Nat} {x : Device} (hx : s.dev[d]? = some x) (a : Nat) :
    s.byte d a = some (x.mem.read a) := by simp [State.byte, hx]

theorem State.handle_of_dev {s : State} {d : Nat} {x : Device} (hx : s.dev[d]? = some x) : s.handle d = x.hdl := by
  simp [State.handle, hx]

/-- The device whose byte is read exists. -/
theorem State.dev_of_byte {s : State} {d a : Nat} {b : Byte} (h : s.byte d a = some b) :
    ∃ x, s.dev[d]? = some x ∧ x.mem.read a = b := by
  unfold State.byte at h
  cases hx : s.dev[d]? with
  | none => rw [hx] at h; cases h
  | some x => exact ⟨x, rfl, by rw [hx] at h; exact Option.some.inj h⟩

end Sys2Proof.Machine
end

