-- ==== Sys2Proof/Laws/PerInstr.lean ====
section
/-! SUPPORT. Facts of every command's syntax, one lemma per constructor. -/

namespace Sys2Proof.Laws.FieldsKept

open Sys2Proof Sys2Proof.Machine

/-- The word of a well-formed command holds the opcode's code, the device and the channel in their fields (rules R81, R84). -/
def Statement (i : Instr) : Prop :=
  i.wf = true →
    (field56 (encode i)).toNat = i.opcode.code ∧
    (field48 (encode i)).toNat = (device? i).getD 0 ∧
    (field32 (encode i)).toNat = (channel? i).getD 0

theorem of_pack {i : Instr} {d c t u : Nat} (he : encode i = packWord i.opcode.code d c t u)
    (hd : (device? i).getD 0 = d) (hc : (channel? i).getD 0 = c) (h1 : d < 256) (h2 : c < 65536) (h3 : t < 16777216)
    (h4 : u < 256) :
    (field56 (encode i)).toNat = i.opcode.code ∧ (field48 (encode i)).toNat = (device? i).getD 0 ∧
      (field32 (encode i)).toNat = (channel? i).getD 0 := by
  have h0 := i.opcode.code_lt
  rw [he, hd, hc]
  exact ⟨field56_pack h0 h1 h2 h3 h4, field48_pack h0 h1 h2 h3 h4, field32_pack h0 h1 h2 h3 h4⟩

theorem mrd (d addr : Nat) : Statement (.mrd d addr) := fun h => by
  simp only [Instr.wf, devFits, addrFits, Bool.and_eq_true, decide_eq_true_eq] at h
  exact of_pack rfl rfl rfl h.1 (by decide) h.2 (by decide)

theorem mwr (d addr : Nat) (v : Byte) : Statement (.mwr d addr v) := fun h => by
  simp only [Instr.wf, devFits, addrFits, Bool.and_eq_true, decide_eq_true_eq] at h
  exact of_pack rfl rfl rfl h.1 (by decide) h.2 v.isLt

theorem cls (addr : Nat) : Statement (.cls addr) := fun h => by
  simp only [Instr.wf, addrFits, decide_eq_true_eq] at h
  exact of_pack rfl rfl rfl (by decide) (by decide) h (by decide)

theorem adv (d : Nat) : Statement (.adv d) := fun h => by
  simp only [Instr.wf, devFits, decide_eq_true_eq] at h
  exact of_pack rfl rfl rfl h (by decide) (by decide) (by decide)

theorem dmp (d : Nat) : Statement (.dmp d) := fun h => by
  simp only [Instr.wf, devFits, decide_eq_true_eq] at h
  exact of_pack rfl rfl rfl h (by decide) (by decide) (by decide)

theorem dmpio (d : Nat) : Statement (.dmpio d) := fun h => by
  simp only [Instr.wf, devFits, decide_eq_true_eq] at h
  exact of_pack rfl rfl rfl h (by decide) (by decide) (by decide)

theorem cnew : Statement .cnew := fun _ =>
  of_pack rfl rfl rfl (by decide) (by decide) (by decide) (by decide)

theorem cdel (c : Nat) : Statement (.cdel c) := fun h => by
  simp only [Instr.wf, chFits, decide_eq_true_eq] at h
  exact of_pack rfl rfl rfl (by decide) h (by decide) (by decide)

theorem cwr (c : Nat) (v : Byte) : Statement (.cwr c v) := fun h => by
  simp only [Instr.wf, chFits, decide_eq_true_eq] at h
  exact of_pack rfl rfl rfl (by decide) h (by decide) v.isLt

theorem crd (c : Nat) : Statement (.crd c) := fun h => by
  simp only [Instr.wf, chFits, decide_eq_true_eq] at h
  exact of_pack rfl rfl rfl (by decide) h (by decide) (by decide)

theorem lnk (d c : Nat) : Statement (.lnk d c) := fun h => by
  simp only [Instr.wf, devFits, chFits, Bool.and_eq_true, decide_eq_true_eq] at h
  exact of_pack rfl rfl rfl h.1 h.2 (by decide) (by decide)

theorem ulk (d : Nat) : Statement (.ulk d) := fun h => by
  simp only [Instr.wf, devFits, decide_eq_true_eq] at h
  exact of_pack rfl rfl rfl h (by decide) (by decide) (by decide)

end Sys2Proof.Laws.FieldsKept
end

