-- ==== Sys2Proof/Tests/Slice0.lean ====
section
/-! SUPPORT. The model's own tests. Expected values are the worked vectors of `95_test_vectors.md` (named by their ids) or words
written out by hand from the tables of `30_encoding.md`; the witness theorems show that the hypotheses of the obligations can be
met, clause by clause. -/

namespace Sys2Proof.Tests

open Sys2Proof Sys2Proof.Machine

/-! ### Helpers -/

/-- Two devices with these stores and handles, and this channel pool. -/
def two (m0 m1 : Memory) (h0 h1 : Option Nat) (chan : List Channel) : State :=
  { dev := [{ mem := m0, hdl := h0 }, { mem := m1, hdl := h1 }], chan := chan, log := [], port := [] }

/-- The response words of a next state. -/
def words : Result → Option (List Word)
  | .next t => some (t.log.map Response.word)
  | .fault r => nomatch r
  | .refused _ => none

/-- The next state. -/
def after : Result → Option State
  | .next t => some t
  | .fault r => nomatch r
  | .refused _ => none

/-- The refusal. -/
def refusal : Result → Option Refusal
  | .next _ => none
  | .fault r => nomatch r
  | .refused r => some r

/-- A master (device 0) and a slave (device 1) on channel 0, which holds 0x77. -/
def linked : State :=
  two [(0xFF02, 0xFF)] [(0xFF01, 0x05), (0xFF02, 0x81)] (some 0) (some 0) [{ live := true, value := 0x77 }]

/-- The same with the channel's lifetime ended. -/
def dangling : State :=
  two [(0xFF01, 0x05), (0xFF02, 0xFF)] [(0xFF01, 0x05), (0xFF02, 0x01)] (some 0) (some 0) [{ live := false, value := 0x09 }]

/-- A pool of `n` live channels. -/
def pool (n : Nat) : State := two [] [] none none (List.replicate n { live := true, value := 0 })

/-! ### Well-formedness: an ill-formed term for each check -/

theorem test_wf_refuses_device_256 : (Instr.adv 256).wf = false := by decide
theorem test_wf_refuses_channel_65536 : (Instr.cdel 65536).wf = false := by decide
theorem test_wf_refuses_address_25_bits : (Instr.cls 0x1000000).wf = false := by decide
theorem test_wf_refuses_second_operand : (Instr.lnk 0 65536).wf = false := by decide
theorem test_wf_accepts_the_largest_operands : (Instr.mwr 255 0xFFFFFF 0xFF).wf = true := by decide

/-! ### Decoding: one word of every constructor, written out from rule R81 and rule R84's table -/

theorem test_decode_mrd : decode 0x0101000000FF0100 = .command (.mrd 1 0xFF01) := by decide
theorem test_decode_mwr : decode 0x0201000000FF0201 = .command (.mwr 1 0xFF02 0x01) := by decide
theorem test_decode_cls : decode 0x0300000001000000 = .command (.cls 0x10000) := by decide
theorem test_decode_adv : decode 0x04FF000000000000 = .command (.adv 255) := by decide
theorem test_decode_dmp : decode 0x0503000000000000 = .command (.dmp 3) := by decide
theorem test_decode_dmpio : decode 0x0604000000000000 = .command (.dmpio 4) := by decide
theorem test_decode_cnew : decode 0x0800000000000000 = .command .cnew := by decide
theorem test_decode_cdel : decode 0x0900FFFF00000000 = .command (.cdel 0xFFFF) := by decide
theorem test_decode_cwr : decode 0x0A0001020000005A = .command (.cwr 0x0102 0x5A) := by decide
theorem test_decode_crd : decode 0x0B00010200000000 = .command (.crd 0x0102) := by decide
theorem test_decode_lnk : decode 0x0C02000300000000 = .command (.lnk 2 3) := by decide
theorem test_decode_ulk : decode 0x0D07000000000000 = .command (.ulk 7) := by decide

/-- V-DEC-1, V-DEC-2, V-DEC-3. -/
theorem test_decode_illegal_opcodes :
    decode 0x0000000000000000 = .rejected .illegalOpcode ∧ decode 0x0700000000000000 = .rejected .illegalOpcode ∧
    decode 0x0E00000000000000 = .rejected .illegalOpcode ∧ decode 0xFF00000000000000 = .rejected .illegalOpcode := by
  decide

/-- V-DEC-4 to V-DEC-8. -/
theorem test_decode_reserved_fields :
    decode 0x0400000000000001 = .rejected .reservedFieldNonZero ∧
    decode 0x0801000000000000 = .rejected .reservedFieldNonZero ∧
    decode 0x0A000000000100AA = .rejected .reservedFieldNonZero ∧
    decode 0x0300010000000000 = .rejected .reservedFieldNonZero ∧
    decode 0x0100000000FF01FF = .rejected .reservedFieldNonZero := by
  decide

/-- Rule R83: the bytes of `ADV d1`, the most significant first. -/
theorem test_decode_bytes :
    decodeBytes [0x04, 0x01, 0, 0, 0, 0, 0, 0, 0xAB] = .word (.command (.adv 1)) [0xAB] ∧
    decodeBytes [0x04, 0x01, 0, 0, 0, 0, 0] = .needsMoreBytes := by
  decide

theorem test_table_word : decodeTableWord 64 0x0C02000300000000 = some (.lnk 2 3) ∧ decodeTableWord 64 0 = none := by decide

/-! ### Store access -/

/-- V-AS-6, and rule R140's example. -/
theorem test_mrd :
    words (exec (.mrd 0 0x10000) linked) = some [0x0100000000000000] ∧
    words (exec (.mrd 1 0xFF01) linked) = some [0x0000000000000005] := by
  decide

/-- V-AS-4: the legacy bound refuses the top byte; V-AS-3: this hardware reads it. -/
theorem test_mrd_top :
    words (readStore true 0 0xFFFF (two [(0xFFFF, 0x01)] [] none none [])) = some [0x0100000000000000] ∧
    words (exec (.mrd 0 0xFFFF) (two [(0xFFFF, 0x01)] [] none none [])) = some [0x0000000000000001] := by
  decide

/-- V-AS-9: ECHO does not mirror WRAM; the write keeps the cells in order. -/
theorem test_mwr :
    (after (exec (.mwr 0 0xE000 0x77) (two [(0xC000, 0x11), (0xF000, 0x22)] [] none none []))).map (fun t => t.dev.map Device.mem) =
      some [[(0xC000, 0x11), (0xE000, 0x77), (0xF000, 0x22)], []] := by
  decide

/-- Rule R145: the old byte comes back, and a byte written back to 0 is not listed. -/
theorem test_mwr_returns_old :
    words (exec (.mwr 0 0xFFFF 0x00) (two [(0xFFFF, 0xAB)] [] none none [])) = some [0x00000000000000AB] ∧
    (after (exec (.mwr 0 0xFFFF 0x00) (two [(0xFFFF, 0xAB)] [] none none []))).map (fun t => t.dev.map Device.mem) =
      some [[], []] := by
  decide

/-! ### The classifier and the dumps -/

/-- Rows of `95_test_vectors.md` section 2. -/
theorem test_cls :
    words (exec (.cls 0x8000) linked) = some [0x0023800000200000] ∧
    words (exec (.cls 0xFE9F) linked) = some [0x0061FE000000A000] ∧
    words (exec (.cls 0xFFFE) linked) = some [0x0091FF8000007F00] ∧
    words (exec (.cls 0xFFFF) linked) = some [0x00A3FFFF00000100] ∧
    words (exec (.cls 0x10000) linked) = some [0x0000000000000000] := by
  decide

/-- Rule R115's example, and the short last line of HRAM with the line of IE (V-DMP-1). -/
theorem test_dmp :
    (dumpRecords [(0xFFFE, 0xFE), (0xFFFF, 0xFF)]).take 4 = [.name .rom0, .large, .blank, .name .rom1] ∧
    (dumpRecords [(0xFFFE, 0xFE), (0xFFFF, 0xFF)]).drop 88 =
      [.bytes [0, 0, 0, 0, 0, 0, 0xFE], .blank, .name .ie, .bytes [0xFF], .blank] := by
  decide

/-- Rule R125's example. -/
theorem test_dmpio : (dumpIoRecords [(0xFF02, 0xFF)]).take 2 = [.bytes [0, 0, 0xFF, 0, 0, 0, 0, 0], .bytes [0, 0, 0, 0, 0, 0, 0, 0]] := by
  decide

/-- Rule R121: a line of V-DMP-1. -/
theorem test_render : renderDump [.name .io, .bytes [0x08, 0x9F, 0xFE], .blank] =
    ['I', 'O', Char.ofNat 10, '0', '8', ' ', '9', 'F', ' ', 'F', 'E', Char.ofNat 10, Char.ofNat 10] := by
  decide

/-! ### The serial engine -/

/-- V-ADV-1 and V-ADV-9. -/
theorem test_adv :
    words (exec (.adv 0) linked) = some [0x0001000000000001] ∧
    (after (exec (.adv 0) linked)).map State.chan = some [{ live := true, value := 0x01 }] ∧
    words (exec (.adv 1) linked) = some [0x0002000000000077] ∧
    (after (exec (.adv 1) linked)).map (fun t => t.byte 1 0xFF01) = some (some 0x77) := by
  decide

/-- V-ADV-5 and V-ADV-11 on a dead channel; V-ADV-3's wrap. -/
theorem test_adv_no_cable :
    words (exec (.adv 0) dangling) = some [0x0201000000000006] ∧
    (after (exec (.adv 0) dangling)).map State.chan = some dangling.chan ∧
    words (exec (.adv 1) dangling) = some [0x0202000000000005] ∧
    words (exec (.adv 0) (two [(0xFF01, 0xFF), (0xFF02, 0xFF)] [] none none [])) = some [0x0201000000000000] := by
  decide

/-! ### Channels and handles -/

/-- V-CH-1. -/
theorem test_cnew :
    words (exec .cnew (pool 2)) = some [0x0000000200000000] ∧
    (after (exec .cnew (pool 1))).map State.chan = some [{ live := true, value := 0 }, { live := true, value := 0 }] := by
  decide

/-- V-CH-6. -/
theorem test_cdel :
    words (exec (.cdel 0) linked) = some [0x0000000000000000] ∧
    (after (exec (.cdel 0) linked)).map State.chan = some [{ live := false, value := 0x77 }] ∧
    words (exec (.cdel 0) dangling) = some [0x0200000000000000] := by
  decide

/-- V-CH-3 and V-CH-7. -/
theorem test_cwr :
    (after (exec (.cwr 0 0x5A) linked)).map State.chan = some [{ live := true, value := 0x5A }] ∧
    words (exec (.cwr 0 0x10) dangling) = some [0x0200000000000000] ∧
    (after (exec (.cwr 0 0x10) dangling)).map State.chan = some dangling.chan := by
  decide

/-- Rule R173, V-CH-7 and V-CH-12. -/
theorem test_crd :
    words (exec (.crd 0) linked) = some [0x0000000000000077] ∧
    words (exec (.crd 0) dangling) = some [0x0200000000000000] ∧
    refusal (exec (.crd 1) linked) = some .noSuchChannel := by
  decide

/-- V-CH-8 and V-CH-9; a missing device is found before a missing channel (rule R242). -/
theorem test_lnk :
    words (exec (.lnk 1 0) (two [] [] none none [{ live := false, value := 0 }])) = some [0x0200000000000000] ∧
    (after (exec (.lnk 1 0) (two [] [] none none [{ live := false, value := 0 }]))).map (fun t => t.handle 1) = some (some 0) ∧
    refusal (exec (.lnk 0 0) (two [] [] none none [])) = some .noSuchChannel ∧
    refusal (exec (.lnk 2 0) (two [] [] none none [])) = some .noSuchDevice := by
  decide

/-- V-CH-10. -/
theorem test_ulk :
    words (exec (.ulk 0) linked) = some [0x0000000000000000] ∧
    (after (exec (.ulk 0) linked)).map (fun t => (t.handle 0, t.handle 1)) = some (none, some 0) := by
  decide

/-! ### The step and the assembler -/

/-- V-DEC-9 and the idle step of rule R253. -/
theorem test_step :
    refusal (step (linked.issue [0x0402000000000000])) = some .noSuchDevice ∧
    after (step linked) = some linked ∧
    words (step (linked.issue [0x0400000000000000, 0x0401000000000000])) = some [0x0001000000000001] := by
  decide

/-- From reset, with the two parameters free, a command issued first runs. -/
theorem test_step_from_reset : words (step (State.reset.withFetchWord 64 0x0800000000000000)) = some [0x0000000000000000] := by
  decide

/-- Rule R97's worked encoding as a line of text. -/
theorem test_assemble_line :
    assembleLine ['M', 'W', 'R', ' ', 'd', '1', ',', ' ', '0', 'x', 'F', 'F', '0', '2', ',', ' ', '1', ' ', ';', 'x'] =
      some [.mwr 1 0xFF02 0x01] ∧
    assembleProgram [['A', 'D', 'V', ' ', 'd', '0']] = some [0x0400000000000000] ∧
    assembleLine ['P', 'A', 'I', 'R', ' ', 'd', '0', ',', 'd', '1', ',', 'c', '0'] = some [.cnew, .lnk 0 0, .lnk 1 0] := by
  decide

/-- Rule R95: operands outside their ranges cannot be assembled. -/
theorem test_assemble_refuses :
    assemble (.command .cls) [.num 0x1000000] = none ∧ assemble (.command .cwr) [.chan 0, .num 256] = none := by
  decide

/-! ### Witnesses: the hypotheses of the obligations can be met -/

theorem witness_EncodedCommandDecodesBack : (Instr.mwr 255 0xFFFFFF 0xFF).wf = true := by decide
theorem witness_DecodedWordEncodesBack : decode 0x04FF000000000000 = .command (.adv 255) := by decide
theorem witness_MatchAndMaskSelectTheCommand :
    (0x04FF000000000000 : Word) &&& Opcode.adv.maskWord = Opcode.adv.matchWord := by decide
theorem witness_ReservedOpcodesAreRefused :
    (linked.issue [0x0E00000000000000]).port = 0x0E00000000000000 :: [] ∧ 0x0E ≤ (field56 0x0E00000000000000).toNat ∧
    (linked.issue [0x0700000000000000]).port = 0x0700000000000000 :: [] ∧ field56 0x0700000000000000 = 0x07 ∧
    (linked.issue [0x00FFFFFFFFFFFFFF]).port = 0x00FFFFFFFFFFFFFF :: [] ∧ field56 0x00FFFFFFFFFFFFFF = 0x00 := by decide
theorem witness_NonZeroUnusedFieldsAreRefused :
    (linked.issue [0x0400000000000001]).port = 0x0400000000000001 :: [] ∧
    (field56 0x0400000000000001).toNat = Opcode.adv.code ∧
    (0x0400000000000001 : Word) &&& (Opcode.adv.maskWord &&& 0x00FFFFFFFFFFFFFF) ≠ 0 := by decide
theorem witness_DmpioLinesAreTheIoLinesOfDmp :
    (∃ t, exec (.dmp 1) linked = .next t) ∧ ∃ u, exec (.dmpio 1) linked = .next u := ⟨⟨_, rfl⟩, ⟨_, rfl⟩⟩
theorem witness_AssembledCommandsFit :
    assemble .pair [.dev 0, .dev 255, .chan 65535] = some [.cnew, .lnk 0 65535, .lnk 255 65535] ∧
    assemble (.command .mwr) [.dev 255, .num 0xFFFFFF, .num 0xFF] = some [.mwr 255 0xFFFFFF 0xFF] := by decide
theorem witness_StepPerformsTheIssuedCommand :
    linked.port = [] ∧ (Instr.adv 255).wf = true ∧
    (linked.issue [encode (.adv 255)]).port = encode (.adv 255) :: [] ∧
    decode 0x04FF000000000000 = .command (.adv 255) ∧ decode 0x0700000000000000 = .rejected .illegalOpcode ∧
    decode 0x0801000000000000 = .rejected .reservedFieldNonZero := by decide
theorem witness_ResetLeavesMemInitAndNothingElse :
    0 < Config.nDev ∧ ∃ x, State.reset.dev[0]? = some x := ⟨Nat.succ_pos _, _, rfl⟩
theorem witness_StepKeepsTheInvariant :
    linked.Inv ∧ after (step (linked.issue [0x0400000000000000])) ≠ none ∧ (linked.issue [0x0400000000000000]).Inv := by
  decide
theorem witness_EveryCommandAppendsOneResponse :
    (∃ t, exec (.adv 0) linked = .next t) ∧ (∃ t, step linked = .next t) ∧
    ∃ t, step (linked.issue [0x0400000000000000]) = .next t := ⟨⟨_, rfl⟩, ⟨_, rfl⟩, ⟨_, rfl⟩⟩
theorem witness_NoCommandChangesTheDeviceSet : ∃ t, exec .cnew linked = .next t := ⟨_, rfl⟩
theorem witness_RefusalsAreExactlyTheListedOnes :
    refusal (exec (.ulk 2) linked) = some .noSuchDevice ∧ linked.nextCh ≤ 65536 ∧
    refusal (exec (.lnk 1 1) linked) = some .noSuchChannel := by decide
theorem pool_nextCh (n : Nat) : (pool n).nextCh = n := List.length_replicate
theorem witness_RefusalsAreExactlyTheListedOnes_exhausted : (pool 65536).nextCh = 65536 := pool_nextCh 65536
theorem witness_StatusesComeFromTheListedCauses :
    (∃ t r, exec (.mrd 0 0x10000) linked = .next t ∧ t.log = linked.log ++ [r] ∧ r.status = .outOfRange) ∧
    (∃ t r, exec (.adv 1) dangling = .next t ∧ t.log = dangling.log ++ [r] ∧ r.status = .noCableConnected) ∧
    ∃ t r, exec (.crd 0) dangling = .next t ∧ t.log = dangling.log ++ [r] ∧ r.status = .noCableConnected :=
  ⟨⟨_, _, rfl, rfl, rfl⟩, ⟨_, _, rfl, rfl, rfl⟩, ⟨_, _, rfl, rfl, rfl⟩⟩
theorem witness_MrdReturnsTheStoreByte :
    linked.nDev ≤ 2 ∧ linked.byte 1 0xFFFF = some 0 ∧ 0xFFFF ≤ 0xFFFF ∧ 1 < linked.nDev ∧ 0xFFFF < 0x10000 ∧
    linked.byte 1 0xFFFE = some 0 ∧ 0xFFFE < 0xFFFF := by decide
theorem witness_LegacyBoundMakesTheTopByteWriteOnly : 1 < linked.nDev := by decide
theorem witness_MwrReplacesTheByteAndReturnsTheOldOne :
    linked.nDev ≤ 2 ∧ 1 < linked.nDev ∧ 0xFFFF < 0x10000 ∧ linked.byte 1 0xFFFF = some 0 := by decide
theorem witness_StoreCommandsFrame :
    (∃ t, exec (.mrd 0 0xFFFF) linked = .next t) ∧ (∃ t, exec (.mwr 0 0xFFFF 1) linked = .next t) ∧
    storeAddr 0xFFFF = some 0xFFFF ∧ (∃ t, exec (.mwr 0 0x10000 1) linked = .next t) ∧ storeAddr 0x10000 = none :=
  ⟨⟨_, rfl⟩, ⟨_, rfl⟩, rfl, ⟨_, rfl⟩, rfl⟩
theorem witness_StoreRoundTrip :
    ∃ t u, exec (.mwr 0 0xFFFF 0xCD) linked = .next t ∧ runCommands [.adv 0, .mwr 0 0xFFFE 1, .mwr 1 0xFFFF 2] t = .next u ∧
      (∀ i ∈ [Instr.adv 0, .mwr 0 0xFFFE 1, .mwr 1 0xFFFF 2],
        (∀ v', i ≠ .mwr 0 0xFFFF v') ∧ (0xFFFF = 0xFF01 → i ≠ .adv 0)) :=
  ⟨_, _, rfl, rfl, by simp⟩
theorem witness_StoreRoundTrip_serial_data :
    ∃ t u, exec (.mwr 0 0xFF01 0xCD) linked = .next t ∧ runCommands [.adv 1] t = .next u ∧
      ∀ i ∈ [Instr.adv 1], (∀ v', i ≠ .mwr 0 0xFF01 v') ∧ (0xFF01 = 0xFF01 → i ≠ .adv 0) :=
  ⟨_, _, rfl, rfl, by simp⟩
theorem witness_CommandsNeitherReadNorWriteOtherStores :
    device? (.adv 0) ≠ some 1 ∧ (∃ t, exec (.adv 0) linked = .next t) ∧ (∃ t, exec (.lnk 1 0) linked = .next t) ∧
    ∃ t, exec (.ulk 1) linked = .next t := ⟨by decide, ⟨_, rfl⟩, ⟨_, rfl⟩, ⟨_, rfl⟩⟩
theorem witness_ClsReturnsTheContainingRegion :
    (⟨.ie, 0xFFFF, 0xFFFF, 1⟩ : Region) ∈ regionTable ∧ (⟨.hram, 0xFF80, 0xFFFE, 0x7F⟩ : Region) ∈ regionTable ∧
    0xFF80 ≤ 0xFFFE ∧ 0xFFFF < 0x10000 := by decide
theorem witness_RegionsPartitionTheStore : 0xFFFF ≤ 0xFFFF ∧ 0xFFFF < 0x10000 := by decide
theorem witness_DmpAttachesTheRecordsOfTheWalk : linked.nDev ≤ 2 ∧ (linked.dev[1]?).isSome = true := by decide
theorem witness_DmpioAttachesSixteenLines : linked.nDev ≤ 2 ∧ (linked.dev[0]?).isSome = true := by decide
theorem witness_ReadsChangeOnlyTheLogAndRepeat :
    (∃ t, exec (.mrd 0 0x10000) linked = .next t) ∧ (∃ t, exec (.crd 0) linked = .next t) ∧
    (∃ t, exec (.cls 0xFFFF) linked = .next t) ∧ (∃ t, exec (.dmp 1) linked = .next t) ∧
    ∃ t, exec (.dmpio 1) linked = .next t := ⟨⟨_, rfl⟩, ⟨_, rfl⟩, ⟨_, rfl⟩, ⟨_, rfl⟩, ⟨_, rfl⟩⟩
theorem witness_ReadsChangeOnlyTheLogAndRepeat_later :
    (∃ t u, exec (.mrd 0 0xFFFF) linked = .next t ∧ runCommands [.adv 0, .mwr 1 0xFFFF 3] t = .next u ∧
      u.byte 0 0xFFFF = linked.byte 0 0xFFFF) ∧
    ∃ t u, exec (.crd 0) linked = .next t ∧ runCommands [.adv 1, .cnew] t = .next u ∧ u.chan[0]? = linked.chan[0]? :=
  ⟨⟨_, _, rfl, rfl, rfl⟩, ⟨_, _, rfl, rfl, rfl⟩⟩
theorem witness_CnewCreatesAFreshChannel : (pool 65536).nextCh = 65536 ∧ (pool 65535).nextCh < 65536 :=
  ⟨pool_nextCh 65536, by rw [pool_nextCh]; decide⟩
theorem witness_CdelEndsTheLifetime :
    linked.nextCh ≤ 1 ∧ dangling.chan[0]? = some { live := false, value := 0x09 } ∧
    linked.chan[0]? = some { live := true, value := 0x77 } := by decide
theorem witness_CwrOverwritesTheLine :
    linked.nextCh ≤ 1 ∧ dangling.chan[0]? = some { live := false, value := 0x09 } ∧
    linked.chan[0]? = some { live := true, value := 0x77 } := by decide
theorem witness_CrdSamplesTheLine :
    linked.nextCh ≤ 1 ∧ dangling.chan[0]? = some { live := false, value := 0x09 } ∧
    linked.chan[0]? = some { live := true, value := 0x77 } := by decide
theorem witness_LnkSetsTheHandle :
    linked.nDev ≤ 2 ∧ 1 < linked.nDev ∧ linked.nextCh ≤ 1 ∧ 0 < linked.nextCh ∧ linked.isLive 0 = true ∧
    0 < dangling.nextCh ∧ dangling.isLive 0 = false := by decide
theorem witness_UlkDropsTheHandle : linked.nDev ≤ 2 ∧ 1 < linked.nDev := by decide
theorem witness_DeadChannelsStayDeadAndLiveOnesLiveUntilCdel :
    (∃ t, exec (.cdel 0) linked = .next t) ∧ linked.isLive 0 = true ∧ Instr.cnew ≠ .cdel 0 ∧
    (∃ t, exec .cnew linked = .next t) ∧ (∃ t, exec (.adv 0) dangling = .next t) ∧ 0 < dangling.nextCh ∧
    dangling.isLive 0 = false := ⟨⟨_, rfl⟩, rfl, by decide, ⟨_, rfl⟩, ⟨_, rfl⟩, by decide, rfl⟩
theorem witness_HandlesOwnNoChannel :
    (∃ t, exec (.lnk 0 0) dangling = .next t) ∧ (∃ t, exec (.ulk 0) linked = .next t) ∧
    (∃ t, exec (.cdel 0) linked = .next t) ∧ ∃ t, exec (.lnk 1 0) linked = .next t :=
  ⟨⟨_, rfl⟩, ⟨_, rfl⟩, ⟨_, rfl⟩, ⟨_, rfl⟩⟩
theorem witness_DanglingHandleStaysInvalid :
    dangling.handle 0 = some 0 ∧ 0 < dangling.nextCh ∧ dangling.isLive 0 = false ∧
    (∃ t, runCommands [.cnew, .lnk 1 1, .adv 0] dangling = .next t) ∧
    ∀ i ∈ [Instr.cnew, .lnk 1 1, .adv 0], (∀ c', i ≠ .lnk 0 c') ∧ i ≠ .ulk 0 :=
  ⟨rfl, by decide, rfl, ⟨_, rfl⟩, by simp⟩
theorem witness_ChannelRoundTrip :
    linked.isLive 0 = true ∧ ∃ t u, exec (.cwr 0 0x33) linked = .next t ∧
      lineKept 0 [.adv 1, .cnew, .cwr 1 0x44, .ulk 0, .adv 0, .cdel 1] t = true ∧
      runCommands [.adv 1, .cnew, .cwr 1 0x44, .ulk 0, .adv 0, .cdel 1] t = .next u ∧ u.handle 1 = some 0 ∧
      u.byte 1 0xFF02 = some 0x81 ∧ (0x81 : Byte) ≠ 0xFF := ⟨rfl, _, _, rfl, rfl, rfl, rfl, rfl, by decide⟩
/-- What `lineKept` does not allow: a CWR, a linked master's ADV, the channel's end. -/
theorem test_lineKept_refuses_writes :
    lineKept 0 [.cwr 0 1] linked = false ∧ lineKept 0 [.adv 0] linked = false ∧ lineKept 0 [.cdel 0] linked = false ∧
    lineKept 0 [.mwr 1 0xFF02 0xFF, .adv 1] linked = false := by decide
theorem witness_AdvOfAMasterCountsAndSends :
    linked.byte 0 0xFF02 = some 0xFF ∧ linked.byte 0 0xFF01 = some 0 ∧ linked.handle 0 = some 0 ∧
    linked.chan[0]? = some { live := true, value := 0x77 } ∧
    dangling.byte 0 0xFF02 = some 0xFF ∧ dangling.byte 0 0xFF01 = some 5 ∧
    dangling.validHandle (dangling.handle 0) = false := by decide
theorem witness_AdvOfASlaveReceives :
    linked.byte 1 0xFF02 = some 0x81 ∧ (0x81 : Byte) ≠ 0xFF ∧ linked.byte 1 0xFF01 = some 5 ∧ linked.handle 1 = some 0 ∧
    linked.chan[0]? = some { live := true, value := 0x77 } ∧
    dangling.byte 1 0xFF02 = some 0x01 ∧ dangling.byte 1 0xFF01 = some 5 ∧
    dangling.validHandle (dangling.handle 1) = false := by decide
theorem witness_RoleIsReadAtEachAdv :
    (∃ t u, runCommands [.mwr 1 0xFF02 0xFE, .adv 1] linked = .next t ∧ t.byte 1 0xFF02 = some 0xFE ∧
      exec (.adv 1) t = .next u) ∧
    ∃ t u, runCommands [.mwr 1 0xFF02 0xFF] linked = .next t ∧ t.byte 1 0xFF02 = some 0xFF ∧ exec (.adv 1) t = .next u :=
  ⟨⟨_, _, rfl, rfl, rfl⟩, ⟨_, _, rfl, rfl, rfl⟩⟩
theorem witness_AdvFrame :
    (∃ t, exec (.adv 0) linked = .next t) ∧ (∃ t, exec (.adv 1) linked = .next t) ∧ linked.handle 0 ≠ some 1 ∧
    linked.byte 1 0xFF02 ≠ some 0xFF := ⟨⟨_, rfl⟩, ⟨_, rfl⟩, by decide, by decide⟩
theorem witness_TransferMachineRefinesAdv : 1 < linked.nDev ∧ 0 < dangling.nDev := by decide
theorem witness_OrderingContract :
    linked.byte 0 0xFF02 = some 0xFF ∧ linked.byte 0 0xFF01 = some 0 ∧ linked.byte 1 0xFF02 = some 0x81 ∧
    (0x81 : Byte) ≠ 0xFF ∧ linked.handle 0 = some 0 ∧ linked.handle 1 = some 0 ∧
    linked.chan[0]? = some { live := true, value := 0x77 } := by decide

/-- A master and a slave in step at 0xFF, the byte whose increment wraps. -/
def inStep : State :=
  two [(0xFF01, 0xFF), (0xFF02, 0xFF)] [(0xFF01, 0xFF), (0xFF02, 0xFE)] (some 0) (some 0) [{ live := true, value := 0xFF }]

theorem witness_LinkedPairStaysInStep :
    inStep.byte 0 0xFF02 = some 0xFF ∧ inStep.byte 0 0xFF01 = some 0xFF ∧ inStep.byte 1 0xFF02 = some 0xFE ∧
    (0xFE : Byte) ≠ 0xFF ∧ inStep.byte 1 0xFF01 = some 0xFF ∧ inStep.handle 0 = some 0 ∧ inStep.handle 1 = some 0 ∧
    inStep.chan[0]? = some { live := true, value := 0xFF } := by decide

/-- The three devices of program P4 before its first step. -/
def three : State :=
  { dev := [{ mem := [(0xFF01, 0x10), (0xFF02, 0xFF)], hdl := some 0 }, { mem := [(0xFF01, 0x20), (0xFF02, 0xFF)], hdl := some 0 },
      { mem := [(0xFF02, 0x81)], hdl := some 0 }]
    chan := [{ live := true, value := 0 }], log := [], port := [] }

theorem witness_LastMasterBeforeTheSlaveWins :
    (0 : Nat) ≠ 1 ∧ three.byte 0 0xFF02 = some 0xFF ∧ three.byte 0 0xFF01 = some 0x10 ∧ three.byte 1 0xFF02 = some 0xFF ∧
    three.byte 1 0xFF01 = some 0x20 ∧ three.byte 2 0xFF02 = some 0x81 ∧ (0x81 : Byte) ≠ 0xFF ∧ three.handle 0 = some 0 ∧
    three.handle 1 = some 0 ∧ three.handle 2 = some 0 ∧ three.chan[0]? = some { live := true, value := 0 } := by decide
theorem witness_PseudoInstructionsTakeEffect :
    1 < linked.nDev ∧ 0 < linked.nDev ∧ linked.nextCh < 65536 ∧ pseudoApplies linked (.pair 0 1 1) = true ∧
    ∀ d ∈ [1, 0, 1], d < linked.nDev := by decide
theorem witness_LiveHandlesNeverFail : linked.handlesLive = true ∧ linked.handle 1 = some 0 := by decide

end Sys2Proof.Tests
end

section
/-! PROOFS. The state family (`10_state.md`): what reset holds, and what every effect of a command keeps of the log, the port,
the devices, the handles and the channel pool. -/

namespace Sys2Proof.Machine

/-! ### Reset -/

theorem one_le_nDev : 1 ≤ Config.nDev := Nat.succ_pos _

theorem nDev_le_256 : Config.nDev ≤ 256 := Config.nDevLessOne.isLt

@[simp] theorem State.nDev_construct (n : Nat) (init : BitVec 16 → Byte) : (State.construct n init).nDev = n :=
  List.length_replicate

/-- Every device right after reset has the one store and no handle (rules R37, R38). -/
theorem State.construct_dev_eq_some {n d : Nat} {init : BitVec 16 → Byte} {x : Device} :
    (State.construct n init).dev[d]? = some x ↔ d < n ∧ x = { mem := Memory.ofInit init, hdl := none } := by
  simp [State.construct, List.getElem?_replicate, eq_comm]

theorem State.byte_construct {n d a : Nat} (init : BitVec 16 → Byte) (hd : d < n) (ha : a < storeSize) :
    (State.construct n init).byte d a = some (init (BitVec.ofNat 16 a)) := by
  rw [State.byte_of_dev (State.construct_dev_eq_some.mpr ⟨hd, rfl⟩), Memory.read_ofInit init a ha]

/-- Settles O11: reset is `construct` at the OPEN `N_DEV` and `MEM_INIT`, and each clause is a fact about `construct`. -/
theorem resetLeavesMemInitAndNothingElse : Obligations.ResetLeavesMemInitAndNothingElse := by
  refine ⟨State.nDev_construct _ _, one_le_nDev, nDev_le_256, ?bytes, ?handles, rfl, rfl⟩
  case bytes => exact fun d a hd ha => State.byte_construct Config.memInit hd (Nat.lt_succ_of_le ha)
  case handles =>
    intro d x hx
    obtain ⟨-, rfl⟩ := State.construct_dev_eq_some.mp hx
    rfl

/-! ### The log, the port and the device set -/

/-- No effect touches the log: only the response a command appends does. -/
theorem Effect.log_eq {s t : State} {i : Instr} (h : Effect s i t) : t.log = s.log := by cases h <;> rfl

theorem Effect.port_eq {s t : State} {i : Instr} (h : Effect s i t) : t.port = s.port := by cases h <;> rfl

/-- No effect adds or removes a device: an effect on the devices replaces one in its place. -/
theorem Effect.nDev_eq {s t : State} {i : Instr} (h : Effect s i t) : t.nDev = s.nDev := by cases h <;> simp

theorem exec_log {i : Instr} {s t : State} (h : exec i s = .next t) : ∃ r, t.log = s.log ++ [r] := by
  obtain ⟨s', r, rfl, he⟩ := exec_next h
  exact ⟨r, by rw [State.respond_log, he.log_eq]⟩

theorem exec_port {i : Instr} {s t : State} (h : exec i s = .next t) : t.port = s.port := by
  obtain ⟨s', r, rfl, he⟩ := exec_next h
  exact he.port_eq

theorem exec_nDev {i : Instr} {s t : State} (h : exec i s = .next t) : t.nDev = s.nDev := by
  obtain ⟨s', r, rfl, he⟩ := exec_next h
  exact he.nDev_eq

/-- Settles O14: a command appends its response to a log and a port that its effect leaves alone, and a step that performs a
command does so on the state without that command's word. -/
theorem everyCommandAppendsOneResponse : Obligations.EveryCommandAppendsOneResponse := by
  refine ⟨fun i s t h => ⟨exec_log h, exec_port h⟩, fun s t h => ?_⟩
  obtain ⟨hp, rfl⟩ | ⟨w, ws, i, hp, -, h⟩ := step_next h
  · exact .inl ⟨hp, rfl⟩
  · exact .inr ⟨by simp [hp], exec_log (s := { s with port := ws }) h⟩

/-- Settles O15: every effect keeps the number of devices, and a step is a command's effect or nothing. -/
theorem noCommandChangesTheDeviceSet : Obligations.NoCommandChangesTheDeviceSet := by
  refine ⟨fun i s t h => exec_nDev h, fun s t h => ?_⟩
  obtain ⟨-, rfl⟩ | ⟨w, ws, i, -, -, h⟩ := step_next h
  · rfl
  · exact exec_nDev (s := { s with port := ws }) h

/-! ### Handles and channels -/

theorem exec_lnk_chan {d c : Nat} {s t : State} (h : exec (.lnk d c) s = .next t) : t.chan = s.chan := by
  obtain ⟨s', r, rfl, he⟩ := exec_next h
  cases he <;> rfl

theorem exec_ulk_chan {d : Nat} {s t : State} (h : exec (.ulk d) s = .next t) : t.chan = s.chan := by
  obtain ⟨s', r, rfl, he⟩ := exec_next h
  cases he <;> rfl

/-- An effect changes the handle of the device that LNK or ULK names, and no other: the stores of MWR and ADV put a device with
the same handle in its place, and the channel commands replace no device. -/
theorem Effect.handle_eq {s t : State} {i : Instr} {d : Nat} (h : Effect s i t) (hl : ∀ c, i ≠ .lnk d c)
    (hu : i ≠ .ulk d) : t.handle d = s.handle d := by
  cases h with
  | unchanged => rfl
  | store e x a v hx => exact State.handle_store a v hx d
  | count e x v hx => exact State.handle_store serialDataAddr v hx d
  | send e x v c ch hx =>
    rw [State.handle_setChan]
    exact State.handle_store serialDataAddr v hx d
  | create => rfl
  | endLife => rfl
  | drive => rfl
  | link e c x ch hx =>
    have hne : d ≠ e := fun hde => hl c (by rw [hde])
    rw [State.handle_setDev _ hx, if_neg hne]
  | unlink e x hx =>
    have hne : d ≠ e := fun hde => hu (by rw [hde])
    rw [State.handle_setDev _ hx, if_neg hne]

theorem exec_handle {i : Instr} {s t : State} {d : Nat} (h : exec i s = .next t) (hl : ∀ c, i ≠ .lnk d c)
    (hu : i ≠ .ulk d) : t.handle d = s.handle d := by
  obtain ⟨s', r, rfl, he⟩ := exec_next h
  exact he.handle_eq hl hu

/-- Settles O39: LNK and ULK replace a device and no channel; a handle is kept by every command but LNK and ULK of its
device, so by CDEL too. -/
theorem handlesOwnNoChannel : Obligations.HandlesOwnNoChannel :=
  ⟨fun _ _ _ _ h => h.elim exec_lnk_chan exec_ulk_chan,
    fun _ _ _ h _ => exec_handle h (by simp) (by simp),
    fun _ _ _ _ h hl hu => exec_handle h hl hu⟩

end Sys2Proof.Machine
end

section
/-! PROOFS. The memory family (`20_memory.md`): what a reading command's answer depends on, and that it changes only the log. -/

namespace Sys2Proof.Machine

/-- A read's address in range is read as it stands (rule R100). -/
theorem loadAddr_eq {legacy : Bool} {a b : Nat} (h : loadAddr legacy a = some b) : a = b := by
  unfold loadAddr at h
  split at h
  · exact Option.some.inj h
  · cases h

/-- Command `i` reads the location `loc` of the state and nothing else: performed, it only appends a response, and in every
state with the same contents at `loc` it appends that response again. -/
def ReadsOnly {α : Type} (i : Instr) (loc : State → α) : Prop :=
  ∀ s t : State, exec i s = .next t →
    ∃ r, t = s.respond r ∧ ∀ u : State, loc u = loc s → exec i u = .next (u.respond r)

/-- A command that reads only `loc` answers the same in a later state with the same contents there. -/
theorem ReadsOnly.answer {α : Type} {i : Instr} {loc : State → α} {s t u : State} (hi : ReadsOnly i loc)
    (h : exec i s = .next t) (hu : loc u = loc s) : ∃ r, t = s.respond r ∧ exec i u = .next (u.respond r) := by
  obtain ⟨r, ht, hr⟩ := hi s t h
  exact ⟨r, ht, hr u hu⟩

/-- A command that reads only `loc`, which is no part of the log, gives its answer again when it is done again. -/
theorem ReadsOnly.repeats {α : Type} {i : Instr} {loc : State → α} {s t : State} (hi : ReadsOnly i loc)
    (hloc : ∀ (s : State) (r : Response), loc (s.respond r) = loc s) (h : exec i s = .next t) :
    ∃ r, t = s.respond r ∧ exec i t = .next (t.respond r) := by
  obtain ⟨r, rfl, hr⟩ := hi s t h
  exact ⟨r, rfl, hr _ (hloc s r)⟩

/-- MRD reads one byte of one store: the byte's presence says that the device exists, and whether ADDR is in range does not
depend on the state. -/
theorem readsOnly_mrd (d a : Nat) : ReadsOnly (.mrd d a) (fun s => s.byte d a) := by
  intro s t h
  obtain ⟨x, hx, h⟩ := withDevice_next h
  have device_of_same_byte : ∀ u : State, u.byte d a = s.byte d a →
      ∃ y, u.dev[d]? = some y ∧ y.mem.read a = x.mem.read a :=
    fun u hu => State.dev_of_byte (hu.trans (State.byte_of_dev hx a))
  cases ha : loadAddr Config.legacyReadBound a with
  | none =>
    simp only [ha] at h
    cases h
    refine ⟨_, rfl, fun u hu => ?_⟩
    obtain ⟨y, hy, -⟩ := device_of_same_byte u hu
    exact (withDevice_some hy).trans (by simp only [ha])
  | some b =>
    obtain rfl := loadAddr_eq ha
    simp only [ha] at h
    cases h
    refine ⟨_, rfl, fun u hu => ?_⟩
    obtain ⟨y, hy, hb⟩ := device_of_same_byte u hu
    exact (withDevice_some hy).trans (by simp only [ha, hb])

/-- CRD reads one channel record. -/
theorem readsOnly_crd (c : Nat) : ReadsOnly (.crd c) (fun s => s.chan[c]?) := by
  intro s t h
  obtain ⟨ch, hc, h⟩ := withChannel_next h
  cases h
  exact ⟨_, rfl, fun u hu => withChannel_some (hu.trans hc)⟩

/-- CLS reads no part of the state (rule R111). -/
theorem readsOnly_cls (a : Nat) : ReadsOnly (.cls a) (fun _ => ()) := by
  intro s t h
  cases h
  exact ⟨_, rfl, fun _ _ => rfl⟩

/-- DMP reads one device. -/
theorem readsOnly_dmp (d : Nat) : ReadsOnly (.dmp d) (fun s => s.dev[d]?) := by
  intro s t h
  obtain ⟨x, hx, h⟩ := withDevice_next h
  cases h
  exact ⟨_, rfl, fun u hu => withDevice_some (hu.trans hx)⟩

/-- DMPIO reads one device. -/
theorem readsOnly_dmpio (d : Nat) : ReadsOnly (.dmpio d) (fun s => s.dev[d]?) := by
  intro s t h
  obtain ⟨x, hx, h⟩ := withDevice_next h
  cases h
  exact ⟨_, rfl, fun u hu => withDevice_some (hu.trans hx)⟩

/-- Settles O31: each of the five commands reads one location outside the log, MRD a byte and CRD a channel record. -/
theorem readsChangeOnlyTheLogAndRepeat : Obligations.ReadsChangeOnlyTheLogAndRepeat := by
  refine ⟨?again, fun s t u d a h hu => (readsOnly_mrd d a).answer h hu, fun s t u c h hu => (readsOnly_crd c).answer h hu⟩
  case again =>
    rintro i s t (⟨d, a, rfl⟩ | ⟨c, rfl⟩ | ⟨a, rfl⟩ | ⟨d, rfl⟩ | ⟨d, rfl⟩) h
    · exact (readsOnly_mrd d a).repeats (fun s r => State.byte_respond s r d a) h
    · exact (readsOnly_crd c).repeats (fun _ _ => rfl) h
    · exact (readsOnly_cls a).repeats (fun _ _ => rfl) h
    · exact (readsOnly_dmp d).repeats (fun _ _ => rfl) h
    · exact (readsOnly_dmpio d).repeats (fun _ _ => rfl) h

end Sys2Proof.Machine
end

section
/-! PROOFS. The encoding family (`30_encoding.md`): the decoder against the match and mask table, a word as bytes, and the
response of CLS. -/

namespace Sys2Proof

/-! ### A word field by field -/

/-- A word is its five fields. -/
theorem word_ext_iff {w w' : Word} :
    w = w' ↔ field56 w = field56 w' ∧ field48 w = field48 w' ∧ field32 w = field32 w' ∧ field8 w = field8 w' ∧
      field0 w = field0 w' := by
  constructor
  · rintro rfl
    exact ⟨rfl, rfl, rfl, rfl, rfl⟩
  · rintro ⟨h56, h48, h32, h8, h0⟩
    rw [← packWord_fields w, ← packWord_fields w', h56, h48, h32, h8, h0]

section fields

variable (w m : Word)

@[simp] theorem field56_and : field56 (w &&& m) = field56 w &&& field56 m := BitVec.extractLsb'_and
@[simp] theorem field48_and : field48 (w &&& m) = field48 w &&& field48 m := BitVec.extractLsb'_and
@[simp] theorem field32_and : field32 (w &&& m) = field32 w &&& field32 m := BitVec.extractLsb'_and
@[simp] theorem field8_and : field8 (w &&& m) = field8 w &&& field8 m := BitVec.extractLsb'_and
@[simp] theorem field0_and : field0 (w &&& m) = field0 w &&& field0 m := BitVec.extractLsb'_and

end fields

/-- No bit of `w` is in `m` exactly when no field of `w` has one in that field of `m`. -/
theorem and_eq_zero_iff (w m : Word) :
    w &&& m = 0 ↔ field56 w &&& field56 m = 0 ∧ field48 w &&& field48 m = 0 ∧ field32 w &&& field32 m = 0 ∧
      field8 w &&& field8 m = 0 ∧ field0 w &&& field0 m = 0 := by
  simp only [word_ext_iff, field56_and, field48_and, field32_and, field8_and, field0_and]
  rfl

/-! ### The match and mask table (rule R85) -/

/-- The bits an opcode does not use: its mask outside the OP byte (rules R85, R87). -/
def Opcode.unusedMask (k : Opcode) : Word := k.maskWord &&& 0x00FFFFFFFFFFFFFF

theorem Opcode.field56_maskWord (k : Opcode) : field56 k.maskWord = BitVec.allOnes 8 := by cases k <;> rfl

/-- The unused bits are those the mask has in the four fields below the OP byte. -/
theorem and_unusedMask_eq_zero_iff (w : Word) (k : Opcode) :
    w &&& k.unusedMask = 0 ↔ field48 w &&& field48 k.maskWord = 0 ∧ field32 w &&& field32 k.maskWord = 0 ∧
      field8 w &&& field8 k.maskWord = 0 ∧ field0 w &&& field0 k.maskWord = 0 := by
  have h56 : field56 k.unusedMask = 0 := by cases k <;> rfl
  have h48 : field48 k.unusedMask = field48 k.maskWord := by cases k <;> rfl
  have h32 : field32 k.unusedMask = field32 k.maskWord := by cases k <;> rfl
  have h8 : field8 k.unusedMask = field8 k.maskWord := by cases k <;> rfl
  have h0 : field0 k.unusedMask = field0 k.maskWord := by cases k <;> rfl
  rw [and_eq_zero_iff, h56, h48, h32, h8, h0]
  simp

/-- A word matches an opcode's row when its OP byte is the opcode and it has no bit that the opcode does not use. -/
theorem and_maskWord_eq_matchWord_iff (w : Word) (k : Opcode) :
    w &&& k.maskWord = k.matchWord ↔ (field56 w).toNat = k.code ∧ w &&& k.unusedMask = 0 := by
  have h56 : (field56 k.matchWord).toNat = k.code := by cases k <;> rfl
  have h48 : field48 k.matchWord = 0 := by cases k <;> rfl
  have h32 : field32 k.matchWord = 0 := by cases k <;> rfl
  have h8 : field8 k.matchWord = 0 := by cases k <;> rfl
  have h0 : field0 k.matchWord = 0 := by cases k <;> rfl
  rw [and_unusedMask_eq_zero_iff, word_ext_iff, ← h56, BitVec.toNat_inj]
  simp only [field56_and, field48_and, field32_and, field8_and, field0_and, k.field56_maskWord, BitVec.and_allOnes, h48, h32,
    h8, h0]

/-! A field that a mask covers is kept whole; the widths are those of DEV and DATA, of CH and of ADDR. -/

theorem and_ff (x : BitVec 8) : x &&& 255#8 = x := BitVec.and_allOnes
theorem and_ffff (x : BitVec 16) : x &&& 65535#16 = x := BitVec.and_allOnes
theorem and_ffffff (x : BitVec 24) : x &&& 16777215#24 = x := BitVec.and_allOnes

/-- An opcode's command is accepted exactly when no field has a bit that the opcode's mask covers (rules R85, R87). -/
theorem decodeFields_eq_acceptIf (k : Opcode) (q : BitVec 8) (r : BitVec 16) (t : BitVec 24) (u : Byte) :
    ∃ i : Instr, i.opcode = k ∧ decodeFields k q.toNat r.toNat t.toNat u =
      acceptIf (decide (q &&& field48 k.maskWord = 0 ∧ r &&& field32 k.maskWord = 0 ∧ t &&& field8 k.maskWord = 0 ∧
        u &&& field0 k.maskWord = 0)) i := by
  cases k <;>
  · refine ⟨_, ?_, congrArg (acceptIf · _) ?_⟩
    · rfl
    · simp [field48, field32, field8, field0, Opcode.maskWord, and_ff, and_ffff, and_ffffff, ← BitVec.toNat_inj, beq_eq_decide,
        Bool.and_assoc]

/-- A word with an opcode in its OP byte is a command with that opcode, accepted when it has no bit that the opcode does not
use (rule R87). -/
theorem decode_of_opcode {w : Word} {k : Opcode} (h : (field56 w).toNat = k.code) :
    ∃ i : Instr, i.opcode = k ∧ decode w = acceptIf (decide (w &&& k.unusedMask = 0)) i := by
  obtain ⟨i, hi, hd⟩ := decodeFields_eq_acceptIf k (field48 w) (field32 w) (field8 w) (field0 w)
  refine ⟨i, hi, (decode_of_fields h rfl rfl rfl).trans ?_⟩
  simp only [hd, and_unusedMask_eq_zero_iff]

theorem acceptIf_ne_illegalOpcode (b : Bool) (i : Instr) : acceptIf b i ≠ .rejected .illegalOpcode := by
  cases b <;> simp [acceptIf]

theorem acceptIf_eq_command_iff {b : Bool} {i j : Instr} : acceptIf b i = .command j ↔ b = true ∧ i = j := by
  cases b <;> simp [acceptIf]

theorem acceptIf_eq_reservedFieldNonZero_iff {b : Bool} {i : Instr} :
    acceptIf b i = .rejected .reservedFieldNonZero ↔ b = false := by
  cases b <;> simp [acceptIf]

/-- No word has two opcodes in its OP byte. -/
theorem Opcode.code_injective : Function.Injective Opcode.code := by
  intro k k' h
  exact Option.some.inj ((Opcode.ofCode_eq_some.mpr h).symm.trans (Opcode.ofCode_eq_some.mpr rfl))

/-- Settles O3: both sides say that the OP byte is the opcode and that no unused bit is set. -/
theorem matchAndMaskSelectTheCommand : Obligations.MatchAndMaskSelectTheCommand := by
  refine ⟨fun w k => ?selects, fun w k k' h h' => ?unique⟩
  case selects =>
    rw [and_maskWord_eq_matchWord_iff]
    constructor
    · rintro ⟨hop, hz⟩
      obtain ⟨i, hi, hd⟩ := decode_of_opcode hop
      exact ⟨i, hd.trans (acceptIf_eq_command_iff.mpr ⟨decide_eq_true hz, rfl⟩), hi⟩
    · rintro ⟨i, hd, rfl⟩
      obtain ⟨hop, -⟩ := decode_command hd
      obtain ⟨j, -, hj⟩ := decode_of_opcode hop
      obtain ⟨hz, -⟩ := acceptIf_eq_command_iff.mp (hj.symm.trans hd)
      exact ⟨hop, of_decide_eq_true hz⟩
  case unique =>
    obtain ⟨hop, -⟩ := (and_maskWord_eq_matchWord_iff w k).mp h
    obtain ⟨hop', -⟩ := (and_maskWord_eq_matchWord_iff w k').mp h'
    exact Opcode.code_injective (hop.symm.trans hop')

/-! ### The two refusals of the decoder (rules R86, R87) -/

/-- The reserved OP bytes are those that name no opcode. -/
theorem ofCode_eq_none_iff (b : Nat) : Opcode.ofCode b = none ↔ b = 0 ∨ b = 7 ∨ 0x0E ≤ b := by
  have below : ∀ b < 0x0E, Opcode.ofCode b = none → b = 0 ∨ b = 7 := by decide
  have code_lt : ∀ k : Opcode, k.code < 0x0E := fun k => by cases k <;> decide
  constructor
  · intro h
    rcases Nat.lt_or_ge b 0x0E with hb | hb
    · exact (below b hb h).imp_right .inl
    · exact .inr (.inr hb)
  · rintro (rfl | rfl | hb)
    · rfl
    · rfl
    · refine Option.eq_none_iff_forall_ne_some.mpr fun k hk => ?_
      have := code_lt k
      have := Opcode.ofCode_eq_some.mp hk
      omega

theorem decode_eq_illegalOpcode_iff (w : Word) :
    decode w = .rejected .illegalOpcode ↔ Opcode.ofCode (field56 w).toNat = none := by
  cases hop : Opcode.ofCode (field56 w).toNat with
  | none => simp [decode, hop]
  | some k =>
    obtain ⟨i, -, hd⟩ := decode_of_opcode (Opcode.ofCode_eq_some.mp hop).symm
    simp [hd, acceptIf_ne_illegalOpcode]

theorem decode_eq_reservedFieldNonZero_iff (w : Word) :
    decode w = .rejected .reservedFieldNonZero ↔ ∃ k : Opcode, (field56 w).toNat = k.code ∧ w &&& k.unusedMask ≠ 0 := by
  constructor
  · intro h
    cases hop : Opcode.ofCode (field56 w).toNat with
    | none => cases ((decode_eq_illegalOpcode_iff w).mpr hop).symm.trans h
    | some k =>
      have hk := (Opcode.ofCode_eq_some.mp hop).symm
      obtain ⟨i, -, hd⟩ := decode_of_opcode hk
      exact ⟨k, hk, of_decide_eq_false (acceptIf_eq_reservedFieldNonZero_iff.mp (hd.symm.trans h))⟩
  · rintro ⟨k, hk, hz⟩
    obtain ⟨i, -, hd⟩ := decode_of_opcode hk
    exact hd.trans (acceptIf_eq_reservedFieldNonZero_iff.mpr (decide_eq_false hz))

/-! ### A word as bytes (rule R83) -/

/-- A word is read back from its eight bytes, whatever follows them. -/
theorem wordOfBytes_bytesOfWord (w : Word) (rest : List Byte) : wordOfBytes (bytesOfWord w ++ rest) = some (w, rest) := by
  simp only [bytesOfWord, List.cons_append, List.nil_append, wordOfBytes]
  refine congrArg (fun v => some (v, rest)) (BitVec.eq_of_toNat_eq ?_)
  simp only [BitVec.toNat_ofNat, BitVec.extractLsb'_toNat, Nat.shiftRight_eq_div_pow]
  have := w.isLt
  omega

/-- Settles O7: the first byte is bits 63:56 by definition, and both readers take the word back from its bytes. -/
theorem wordTravelsMostSignificantByteFirst : Obligations.WordTravelsMostSignificantByteFirst := fun w rest =>
  ⟨rfl, wordOfBytes_bytesOfWord w rest, by simp only [decodeBytes, wordOfBytes_bytesOfWord]⟩

end Sys2Proof

namespace Sys2Proof.Machine

/-- A step on a word that the decoder rejects answers that refusal (rule R238). -/
theorem step_of_rejected {s : State} {w : Word} {ws : List Word} {e : DecodeError} (hp : s.port = w :: ws)
    (hd : decode w = .rejected e) : step s = .refused (decodeRefusal e) := by
  simp only [step, takeCommand_cons hp, performWord, hd]

/-- Settles O4: the decoder rejects as illegal exactly the OP bytes that name no opcode, and a step passes the refusal on. -/
theorem reservedOpcodesAreRefused : Obligations.ReservedOpcodesAreRefused := by
  have reserved : ∀ w : Word, decode w = .rejected .illegalOpcode ↔
      (field56 w = 0x00 ∨ field56 w = 0x07 ∨ 0x0E ≤ (field56 w).toNat) := fun w => by
    rw [decode_eq_illegalOpcode_iff, ofCode_eq_none_iff, BitVec.toNat_eq, BitVec.toNat_eq]
    rfl
  exact ⟨reserved, fun s w ws hp h => step_of_rejected hp ((reserved w).mpr h)⟩

/-- Settles O5: `unusedMask` is the opcode's mask outside the OP byte, and a step passes the decoder's refusal on. -/
theorem nonZeroUnusedFieldsAreRefused : Obligations.NonZeroUnusedFieldsAreRefused :=
  ⟨decode_eq_reservedFieldNonZero_iff, fun _ w _ k hp hk hz =>
    step_of_rejected hp ((decode_eq_reservedFieldNonZero_iff w).mpr ⟨k, hk, hz⟩)⟩

/-! ### CLS (rules R92, R110) -/

theorem Region.contains_iff {r : Region} {a : Nat} : r.contains a = true ↔ r.start ≤ a ∧ a ≤ r.stop := by
  simp only [Region.contains, Bool.and_eq_true, decide_eq_true_eq]

/-- Two regions are the same row, or one ends before the other starts. -/
theorem regionTable_disjoint :
    ∀ r ∈ regionTable, ∀ r' ∈ regionTable, r = r' ∨ r.stop < r'.start ∨ r'.stop < r.start := by decide

/-- The region that holds an address is the one `regionOf` finds. -/
theorem regionOf_eq_some {r : Region} {a : Nat} (hr : r ∈ regionTable) (h1 : r.start ≤ a) (h2 : a ≤ r.stop) :
    regionOf a = some r := by
  cases hf : regionOf a with
  | none => exact absurd (Region.contains_iff.mpr ⟨h1, h2⟩) (List.find?_eq_none.mp hf r hr)
  | some r' =>
    have hc := List.find?_some hf
    obtain ⟨h1', h2'⟩ := Region.contains_iff.mp hc
    obtain rfl | h | h := regionTable_disjoint r hr r' (List.mem_of_find?_eq_some hf)
    · rfl
    · omega
    · omega

theorem regionOf_eq_none {a : Nat} (h : 0xFFFF < a) : regionOf a = none := by
  have stop_le : ∀ r ∈ regionTable, r.stop ≤ 0xFFFF := by decide
  refine List.find?_eq_none.mpr fun r hr => ?_
  have := stop_le r hr
  rw [Region.contains_iff]
  omega

/-- The INFO byte of CLS as a number (rule R92). -/
theorem clsInfo_toNat (b : Bool) (id : RegionId) : (clsInfo b id).toNat = 16 * id.code + (if b then 2 else 0) + 1 := by
  cases b <;> cases id <;> rfl

/-- The response word of CLS for an address of a region: FOUND, IS_START, the region, its start and its size. -/
theorem classify_word {r : Region} {a : Nat} (hr : r ∈ regionTable) (h : regionOf a = some r) :
    (classify a).word = packWord 0x00 (16 * r.id.code + (if a = r.start then 2 else 0) + 1) r.start r.size 0 := by
  have bounds : ∀ r ∈ regionTable, r.start < 2 ^ 16 ∧ r.size < 2 ^ 24 := by decide
  obtain ⟨hstart, hsize⟩ := bounds r hr
  simp only [classify, h, Response.word, clsInfo_toNat, BitVec.toNat_ofNat, Nat.mod_eq_of_lt hstart, Nat.mod_eq_of_lt hsize,
    beq_iff_eq]
  rfl

/-- Settles O24: CLS appends what `classify` answers, by the region that `regionOf` finds or by its finding none. -/
theorem clsReturnsTheContainingRegion : Obligations.ClsReturnsTheContainingRegion := by
  refine fun s a => ⟨rfl, fun r hr h1 h2 => ?inside, fun h => ⟨?above, rfl⟩⟩
  case inside =>
    have hf := regionOf_eq_some hr h1 h2
    refine ⟨classify a, rfl, ?_, classify_word hr hf⟩
    simp only [classify, hf]
  case above =>
    have : classify a = {} := by simp only [classify, regionOf_eq_none h]
    exact congrArg (fun r => Host.Outcome.next (s.respond r)) this

end Sys2Proof.Machine
end

section
/-! PROOFS. The region table family (`40_region_table.md`): CLS reads no state, DMP attaches the records of the address walk,
DMPIO the sixteen lines of the IO window. -/

namespace Sys2Proof.Machine

/-- Settles O25: CLS appends what `classify` answers for the address, whatever the state. -/
theorem clsDependsOnTheAddressAlone : Obligations.ClsDependsOnTheAddressAlone := fun a => ⟨classify a, fun _ => rfl⟩

/-! ### The walk of DMP (rules R115, R116) -/

theorem isStart_iff {a : Nat} : isStart a = true ↔ ∃ r ∈ regionTable, r.start = a := by
  simp only [isStart, List.any_eq_true, beq_iff_eq]

/-- A region is not empty, and its bounds agree with its size (rule R50). -/
theorem regionTable_sizes : ∀ r ∈ regionTable, 0 < r.size ∧ r.stop + 1 = r.start + r.size := by decide

/-- Each region starts where the one before it ends. -/
theorem regionTable_adjoining : regionTable.IsChain fun r r' => r'.start = r.start + r.size := by decide

/-- Past its first address a region holds no start. -/
theorem isStart_inside {r : Region} {a : Nat} (hr : r ∈ regionTable) (h1 : r.start < a) (h2 : a < r.start + r.size) :
    isStart a = false := by
  refine Bool.eq_false_iff.mpr fun h => ?_
  obtain ⟨r', hr', rfl⟩ := isStart_iff.mp h
  obtain ⟨hpos, hstop⟩ := regionTable_sizes r hr
  obtain ⟨hpos', hstop'⟩ := regionTable_sizes r' hr'
  obtain rfl | h | h := regionTable_disjoint r hr r' hr' <;> omega

theorem dumpWalk_append (m : Memory) (k n a : Nat) : dumpWalk m (k + n) a = dumpWalk m k a ++ dumpWalk m n (a + k) := by
  induction k generalizing a with
  | zero => simp [dumpWalk]
  | succ k ih => rw [Nat.succ_add, dumpWalk, dumpWalk, ih, List.append_assoc, Nat.succ_add_eq_add_succ]

/-- The walk emits nothing where no region starts. -/
theorem dumpWalk_eq_nil (m : Memory) {n a : Nat} (h : ∀ b, a ≤ b → b < a + n → isStart b = false) :
    dumpWalk m n a = [] := by
  induction n generalizing a with
  | zero => rfl
  | succ n ih =>
    have here : isStart a = false := h a (by omega) (by omega)
    have rest : dumpWalk m n (a + 1) = [] := ih fun b h1 h2 => h b (by omega) (by omega)
    simp [dumpWalk, here, rest]

/-- The walk over one region's addresses emits that region's records, all at its start. -/
theorem dumpWalk_region (m : Memory) {r : Region} (hr : r ∈ regionTable) : dumpWalk m r.size r.start = regionRecords m r := by
  obtain ⟨hpos, hstop⟩ := regionTable_sizes r hr
  obtain ⟨n, hn⟩ := Nat.exists_eq_add_one.mpr hpos
  have first : isStart r.start = true := isStart_iff.mpr ⟨r, hr, rfl⟩
  have found : regionOf r.start = some r := regionOf_eq_some hr (by omega) (by omega)
  have rest : dumpWalk m n (r.start + 1) = [] := dumpWalk_eq_nil m fun b h1 h2 => isStart_inside hr (by omega) (by omega)
  simp [hn, dumpWalk, first, found, rest]

/-- The walk over adjoining regions emits their records, region by region. -/
theorem dumpWalk_regions (m : Memory) {r : Region} {rs : List Region} (hmem : r :: rs ⊆ regionTable)
    (hadj : (r :: rs).IsChain fun r r' => r'.start = r.start + r.size) :
    dumpWalk m ((r :: rs).map Region.size).sum r.start = (r :: rs).flatMap (regionRecords m) := by
  induction rs generalizing r with
  | nil =>
    obtain ⟨hr, -⟩ := List.cons_subset.mp hmem
    simpa using dumpWalk_region m hr
  | cons r' rs ih =>
    obtain ⟨hr, hrs⟩ := List.cons_subset.mp hmem
    obtain ⟨hstart, hadj⟩ := List.isChain_cons_cons.mp hadj
    rw [List.map_cons, List.sum_cons, dumpWalk_append, ← hstart, dumpWalk_region m hr, ih hrs hadj, ← List.flatMap_cons]

/-- DMP attaches what the walk of rule R115 emits: the table starts at 0 and its sizes add up to the store. -/
theorem dumpWalk_eq_dumpRecords (m : Memory) : dumpWalk m 65536 0 = dumpRecords m :=
  dumpWalk_regions m (List.Subset.refl regionTable) regionTable_adjoining

/-- Settles O27: the eleven regions adjoin each other from 0 on, so the walk emits the records of each in turn. -/
theorem dmpAttachesTheRecordsOfTheWalk : Obligations.DmpAttachesTheRecordsOfTheWalk := by
  refine fun s d => ⟨rfl, withDevice_none, fun x hx => ?_⟩
  rw [dumpWalk_eq_dumpRecords]
  exact withDevice_some hx

/-! ### The lines of DMPIO (rule R125) -/

theorem byteLine_eight (m : Memory) (a : Nat) :
    byteLine m a (a + 7) = .bytes [m.read a, m.read (a + 1), m.read (a + 2), m.read (a + 3), m.read (a + 4), m.read (a + 5),
      m.read (a + 6), m.read (a + 7)] := by
  have count : a + 7 + 1 - a = 8 := by omega
  rw [byteLine, count]
  rfl

/-- Settles O29: each of the sixteen lines holds the eight bytes from its address on. -/
theorem dmpioAttachesSixteenLines : Obligations.DmpioAttachesSixteenLines := by
  refine fun s d => ⟨rfl, withDevice_none, fun x hx => ⟨withDevice_some hx, ?lines⟩⟩
  case lines =>
    refine List.map_congr_left fun k _ => ?_
    rw [byteLine_eight]
    simp only [Nat.add_right_comm]

end Sys2Proof.Machine
end

section
/-! PROOFS. The address space family (`41_address_space.md`): what MRD and MWR answer inside their bounds and above them. -/

namespace Sys2Proof.Machine

/-! ### MRD under either setting of `LEGACY_READ_BOUND` (rules R140, R141) -/

theorem readStore_in_range {legacy : Bool} {s : State} {d a : Nat} {b : Byte} (hb : s.byte d a = some b)
    (ha : a ≤ readLimit legacy) : readStore legacy d a s = .next (s.respond { data := b }) := by
  obtain ⟨x, hx, rfl⟩ := State.dev_of_byte hb
  have addr : loadAddr legacy a = some a := if_pos ha
  exact (withDevice_some hx).trans (by simp only [addr])

theorem readStore_out_of_range {legacy : Bool} {s : State} {d a : Nat} (hd : d < s.nDev) (ha : readLimit legacy < a) :
    readStore legacy d a s = .next (s.respond { status := .outOfRange }) := by
  obtain ⟨x, hx⟩ := State.dev_some_of_lt hd
  have addr : loadAddr legacy a = none := if_neg (Nat.not_le_of_lt ha)
  exact (withDevice_some hx).trans (by simp only [addr])

/-- Settles O18: MRD is the bounded read at the limit 0xFFFF, the legacy form the same read at 0xFFFE. -/
theorem mrdReturnsTheStoreByte : Obligations.MrdReturnsTheStoreByte := fun _ _ _ =>
  ⟨rfl, withDevice_none,
    fun _ hb ha => readStore_in_range (legacy := Config.legacyReadBound) hb ha,
    fun hd ha => readStore_out_of_range (legacy := Config.legacyReadBound) hd ha,
    fun _ hb ha => readStore_in_range (legacy := true) hb ha,
    fun hd ha => readStore_out_of_range (legacy := true) hd ha⟩

/-! ### MWR (rule R145) -/

theorem exec_mwr_in_range {s : State} {d a : Nat} {x : Device} (v : Byte) (hx : s.dev[d]? = some x) (ha : a ≤ 0xFFFF) :
    exec (.mwr d a v) s = .next ((s.setDev d (x.store a v)).respond { data := x.mem.read a }) := by
  have addr : storeAddr a = some a := storeAddr_eq_some.mpr ⟨rfl, ha⟩
  exact (withDevice_some hx).trans (by simp only [addr])

theorem exec_mwr_out_of_range {s : State} {d a : Nat} (v : Byte) (hd : d < s.nDev) (ha : 0xFFFF < a) :
    exec (.mwr d a v) s = .next (s.respond { status := .outOfRange }) := by
  obtain ⟨x, hx⟩ := State.dev_some_of_lt hd
  have addr : storeAddr a = none := if_neg (Nat.not_le_of_lt ha)
  exact (withDevice_some hx).trans (by simp only [addr])

/-- Settles O20: up to 0xFFFF the next state is one store into the device with one response, whose bytes and handles
`State.byte_store` and `State.handle_store` give. -/
theorem mwrReplacesTheByteAndReturnsTheOldOne : Obligations.MwrReplacesTheByteAndReturnsTheOldOne := by
  refine fun s d a v => ⟨rfl, withDevice_none, exec_mwr_out_of_range v, fun old hold ha => ?inRange⟩
  case inRange =>
    obtain ⟨x, hx, rfl⟩ := State.dev_of_byte hold
    exact ⟨_, exec_mwr_in_range v hx ha, State.byte_store a v hx, State.handle_store a v hx, State.nDev_setDev s d _,
      rfl, rfl, rfl⟩

/-- Settles O19: 0xFFFF lies above the legacy read limit and not above the write limit. -/
theorem legacyBoundMakesTheTopByteWriteOnly : Obligations.LegacyBoundMakesTheTopByteWriteOnly := by
  refine ⟨rfl, fun s d v hd => ⟨readStore_out_of_range hd (by decide), ?write⟩⟩
  case write =>
    obtain ⟨x, hx⟩ := State.dev_some_of_lt hd
    have stored : (s.setDev d (x.store 0xFFFF v)).byte d 0xFFFF = some v :=
      (State.byte_store 0xFFFF v hx d 0xFFFF).trans (if_pos ⟨rfl, rfl⟩)
    exact ⟨_, _, exec_mwr_in_range v hx (Nat.le_refl _), stored, State.byte_of_dev hx 0xFFFF, rfl⟩

end Sys2Proof.Machine
end

section
/-! PROOFS. The channel family (`42_channel.md`): what a command does to one record of the pool, the four channel commands on a
live, a dead and a missing channel, and the two handle commands. -/

namespace Sys2Proof.Machine

/-! ### A record's lifetime (rule R161) -/

theorem State.chan_of_isLive {s : State} {c : Nat} (h : s.isLive c = true) : ∃ ch, s.chan[c]? = some ch := by
  cases hc : s.chan[c]? with
  | none => simp [State.isLive, hc] at h
  | some ch => exact ⟨ch, rfl⟩

theorem State.isLive_congr {s t : State} {c : Nat} (h : t.chan[c]? = s.chan[c]?) : t.isLive c = s.isLive c := by
  simp only [State.isLive, h]

/-- One record of a pool whose record `e` was replaced. -/
theorem State.chan_setChan {s : State} {e : Nat} {old : Channel} (new : Channel) (he : s.chan[e]? = some old) (c : Nat) :
    (s.setChan e new).chan[c]? = if c = e then some new else s.chan[c]? := by
  rw [State.setChan_chan, List.getElem?_set]
  simp only [if_pos (show e < s.chan.length from State.lt_nextCh_of_some he), eq_comm]

/-- The record that CNEW adds is the new pool's last. -/
theorem State.chan_addChan_last (s : State) (ch : Channel) : (s.addChan ch).chan[s.nextCh]? = some ch :=
  List.getElem?_concat_length

/-- A live line driven to a new value: every record keeps its live mark, and a dead one its value too (rules R170, R194). -/
theorem State.record_of_drive {s : State} {c e : Nat} {ch old : Channel} (v : Byte) (hc : s.chan[c]? = some ch)
    (he : s.chan[e]? = some old) (hl : old.live = true) :
    ∃ w, (s.setChan e { old with value := v }).chan[c]? = some { ch with value := w } ∧
      (ch.live = false → w = ch.value) := by
  rw [State.chan_setChan _ he]
  by_cases hce : c = e
  · subst hce
    obtain rfl : ch = old := Option.some.inj (hc.symm.trans he)
    exact ⟨v, if_pos rfl, fun hd => by simp [hl] at hd⟩
  · exact ⟨ch.value, (if_neg hce).trans hc, fun _ => rfl⟩

/-- CDEL leaves its channel's record dead, whether it was live or dead already. -/
theorem Effect.record_of_cdel {s t : State} {c : Nat} {ch : Channel} (h : Effect s (.cdel c) t)
    (hc : s.chan[c]? = some ch) : t.chan[c]? = some { ch with live := false } := by
  cases h with
  | unchanged _ _ _ _ hdead =>
    have dead : ch.live = false := (isLive_of_some hc).symm.trans (hdead c rfl)
    rw [hc, ← dead]
  | endLife _ old hold hl =>
    obtain rfl : ch = old := Option.some.inj (hc.symm.trans hold)
    exact (State.chan_setChan _ hc c).trans (if_pos rfl)

/-- Every command but CDEL of the channel keeps its record's live mark, and a dead record whole. -/
theorem Effect.record_of_ne_cdel {s t : State} {i : Instr} {c : Nat} {ch : Channel} (h : Effect s i t)
    (hi : i ≠ .cdel c) (hc : s.chan[c]? = some ch) :
    ∃ v, t.chan[c]? = some { ch with value := v } ∧ (ch.live = false → v = ch.value) := by
  cases h with
  | unchanged => exact ⟨_, hc, fun _ => rfl⟩
  | store => exact ⟨_, hc, fun _ => rfl⟩
  | count => exact ⟨_, hc, fun _ => rfl⟩
  | send d x v e old hx hr hcable =>
    obtain ⟨-, he, hl⟩ := State.cable_eq_some.mp hcable
    exact State.record_of_drive v hc he hl
  | create => exact ⟨_, (List.getElem?_append_left (State.lt_nextCh_of_some hc)).trans hc, fun _ => rfl⟩
  | endLife e old he =>
    have hce : c ≠ e := fun hce => hi (by rw [hce])
    exact ⟨_, ((State.chan_setChan _ he c).trans (if_neg hce)).trans hc, fun _ => rfl⟩
  | drive e v old he hl => exact State.record_of_drive v hc he hl
  | link => exact ⟨_, hc, fun _ => rfl⟩
  | unlink => exact ⟨_, hc, fun _ => rfl⟩

/-- A command alters no record of the pool but in these two ways. -/
theorem exec_record {i : Instr} {s t : State} {c : Nat} {ch : Channel} (h : exec i s = .next t)
    (hc : s.chan[c]? = some ch) :
    (i = .cdel c ∧ t.chan[c]? = some { ch with live := false }) ∨
    (i ≠ .cdel c ∧ ∃ v, t.chan[c]? = some { ch with value := v } ∧ (ch.live = false → v = ch.value)) := by
  obtain ⟨s', r, rfl, he⟩ := exec_next h
  by_cases hi : i = .cdel c
  · subst hi
    exact .inl ⟨rfl, he.record_of_cdel hc⟩
  · exact .inr ⟨hi, he.record_of_ne_cdel hi hc⟩

theorem exec_isLive_of_ne_cdel {i : Instr} {s t : State} {c : Nat} (h : exec i s = .next t) (hl : s.isLive c = true)
    (hi : i ≠ .cdel c) : t.isLive c = true := by
  obtain ⟨ch, hc⟩ := State.chan_of_isLive hl
  obtain ⟨hcd, -⟩ | ⟨-, v, hv, -⟩ := exec_record h hc
  · exact absurd hcd hi
  · rw [isLive_of_some hv, ← isLive_of_some hc, hl]

theorem exec_cdel_isLive {s t : State} {c : Nat} (h : exec (.cdel c) s = .next t) : t.isLive c = false := by
  obtain ⟨ch, hc, -⟩ := withChannel_next h
  obtain ⟨-, hd⟩ | ⟨hne, -⟩ := exec_record h hc
  · exact isLive_of_some hd
  · exact absurd rfl hne

/-- A dead record is kept whole by every command, CDEL of it included. -/
theorem exec_chan_of_dead {i : Instr} {s t : State} {c : Nat} (h : exec i s = .next t) (hc : c < s.nextCh)
    (hd : s.isLive c = false) : t.chan[c]? = s.chan[c]? := by
  obtain ⟨ch, hch⟩ := State.chan_some_of_lt hc
  have dead : ch.live = false := (isLive_of_some hch).symm.trans hd
  obtain ⟨-, ht⟩ | ⟨-, v, ht, hv⟩ := exec_record h hch
  · rw [ht, hch, ← dead]
  · rw [ht, hch, hv dead]

theorem Effect.of_cnew {s t : State} (h : Effect s .cnew t) : t = s.addChan { live := true, value := 0 } := by
  cases h with
  | unchanged _ hne => exact absurd rfl hne
  | create => rfl

theorem Effect.nextCh_eq {s t : State} {i : Instr} (h : Effect s i t) (hi : i ≠ .cnew) : t.nextCh = s.nextCh := by
  cases h with
  | create => exact absurd rfl hi
  | unchanged => rfl
  | store => rfl
  | count => rfl
  | link => rfl
  | unlink => rfl
  | send => simp
  | endLife => simp
  | drive => simp

theorem exec_nextCh {i : Instr} {s t : State} (h : exec i s = .next t) (hi : i ≠ .cnew) : t.nextCh = s.nextCh := by
  obtain ⟨s', r, rfl, he⟩ := exec_next h
  exact he.nextCh_eq hi

theorem exec_cnew_next {s t : State} (h : exec .cnew s = .next t) :
    t.nextCh = s.nextCh + 1 ∧ t.isLive s.nextCh = true := by
  obtain ⟨s', r, rfl, he⟩ := exec_next h
  obtain rfl := he.of_cnew
  exact ⟨State.nextCh_addChan s _, isLive_of_some (s.chan_addChan_last _)⟩

/-- Settles O38: `exec_record` says what becomes of a record of the pool, and CNEW alone adds one. -/
theorem deadChannelsStayDeadAndLiveOnesLiveUntilCdel : Obligations.DeadChannelsStayDeadAndLiveOnesLiveUntilCdel := by
  refine fun i s t c h => ⟨?grows, exec_isLive_of_ne_cdel h, ?ends, ?stays, ?creates, exec_nextCh h⟩
  case grows =>
    by_cases hi : i = .cnew
    · subst hi
      obtain ⟨hnext, -⟩ := exec_cnew_next h
      omega
    · exact (exec_nextCh h hi).ge
  case ends =>
    rintro rfl
    exact exec_cdel_isLive h
  case stays =>
    intro hc hd
    have kept := exec_chan_of_dead h hc hd
    exact ⟨(State.isLive_congr kept).trans hd, kept⟩
  case creates =>
    rintro rfl
    obtain ⟨-, hlive⟩ := exec_cnew_next h
    exact hlive

/-! ### The channel commands (rules R160, R165, R170, R173) -/

theorem exec_cnew {s : State} (h : s.nextCh < 65536) :
    exec .cnew s = .next ((s.addChan { live := true, value := 0 }).respond { wide := BitVec.ofNat 16 s.nextCh }) :=
  if_pos h

/-- Settles O32: up to the last identity CNEW appends a record and answers its identity, which fits WIDE. -/
theorem cnewCreatesAFreshChannel : Obligations.CnewCreatesAFreshChannel := by
  refine fun s => ⟨rfl, fun h => if_neg h.not_lt, fun h => ?_⟩
  refine ⟨_, exec_cnew h, s.nextCh_addChan _, s.chan_addChan_last _, fun c hc => List.getElem?_append_left hc,
    rfl, rfl, _, rfl, rfl, ?word⟩
  case word =>
    have identity : (BitVec.ofNat 16 s.nextCh).toNat = s.nextCh := (BitVec.toNat_ofNat _ 16).trans (Nat.mod_eq_of_lt h)
    exact congrArg (fun n => packWord 0x00 0 n 0 0) identity

/-- Settles O33: CDEL goes by the channel operand, and by the record's live mark where there is one. -/
theorem cdelEndsTheLifetime : Obligations.CdelEndsTheLifetime := fun _ _ =>
  ⟨rfl, withChannel_none, fun _ dead => withChannel_some dead, fun _ live => withChannel_some live⟩

/-- Settles O34: CWR goes by the channel operand, and by the record's live mark where there is one. -/
theorem cwrOverwritesTheLine : Obligations.CwrOverwritesTheLine := fun _ _ _ =>
  ⟨rfl, withChannel_none, fun _ dead => withChannel_some dead, fun _ live => withChannel_some live⟩

/-- Settles O35: CRD goes by the channel operand, and by the record's live mark where there is one. -/
theorem crdSamplesTheLine : Obligations.CrdSamplesTheLine := fun _ _ =>
  ⟨rfl, withChannel_none, fun _ dead => withChannel_some dead, fun _ live => withChannel_some live⟩

/-! ### The handle commands (rules R176, R180) -/

/-- One handle after that of device `d` was replaced. -/
theorem State.handle_setHandle {s : State} {d : Nat} {x : Device} (h : Option Nat) (hx : s.dev[d]? = some x) (e : Nat) :
    (s.setDev d (x.setHandle h)).handle e = if e = d then h else s.handle e :=
  State.handle_setDev _ hx e

/-- Replacing a handle changes no byte. -/
theorem State.byte_setHandle {s : State} {d : Nat} {x : Device} (h : Option Nat) (hx : s.dev[d]? = some x) (e a : Nat) :
    (s.setDev d (x.setHandle h)).byte e a = s.byte e a := by
  rw [State.byte_setDev _ hx, Device.setHandle_mem]
  split
  · next hed => rw [hed, State.byte_of_dev hx]
  · rfl

theorem exec_lnk {s : State} {d c : Nat} {x : Device} {ch : Channel} (hx : s.dev[d]? = some x)
    (hc : s.chan[c]? = some ch) :
    exec (.lnk d c) s = .next ((s.setDev d (x.setHandle (some c))).respond { status := ch.status }) :=
  (withDevice_some hx).trans (withChannel_some hc)

theorem exec_ulk {s : State} {d : Nat} {x : Device} (hx : s.dev[d]? = some x) :
    exec (.ulk d) s = .next ((s.setDev d (x.setHandle none)).respond {}) :=
  withDevice_some hx

/-- Settles O36: LNK replaces the device's handle, and its status is that of the channel's record. -/
theorem lnkSetsTheHandle : Obligations.LnkSetsTheHandle := by
  refine fun s d c => ⟨rfl, withDevice_none, ?noChannel, ?linked⟩
  case noChannel =>
    intro hd hc
    obtain ⟨x, hx⟩ := State.dev_some_of_lt hd
    exact (withDevice_some hx).trans (withChannel_none hc)
  case linked =>
    intro hd hc
    obtain ⟨x, hx⟩ := State.dev_some_of_lt hd
    obtain ⟨ch, hch⟩ := State.chan_some_of_lt hc
    have handles := State.handle_setHandle (some c) hx
    refine ⟨_, exec_lnk hx hch, (handles d).trans (if_pos rfl), fun e he => (handles e).trans (if_neg he),
      State.byte_setHandle (some c) hx, s.nDev_setDev d _, rfl, rfl, ?_⟩
    rw [isLive_of_some hch]
    rfl

/-- Settles O37: ULK replaces the device's handle by none. -/
theorem ulkDropsTheHandle : Obligations.UlkDropsTheHandle := by
  refine fun s d => ⟨rfl, withDevice_none, fun hd => ?_⟩
  obtain ⟨x, hx⟩ := State.dev_some_of_lt hd
  have handles := State.handle_setHandle none hx
  exact ⟨_, exec_ulk hx, (handles d).trans (if_pos rfl), fun e he => (handles e).trans (if_neg he),
    State.byte_setHandle none hx, s.nDev_setDev d _, rfl, rfl, rfl⟩

end Sys2Proof.Machine
end

section
/-! PROOFS. The serial engine family (`43_serial_protocol.md`): the step each role takes, with a valid handle and without one, and
the two orders in which a linked master and slave can be advanced. -/

namespace Sys2Proof.Machine

/-! ### The role (rule R191) -/

theorem Device.serialControl_of_byte {s : State} {d : Nat} {x : Device} {ctl : Byte} (hx : s.dev[d]? = some x)
    (hctl : s.byte d 0xFF02 = some ctl) : x.serialControl = ctl :=
  Option.some.inj ((State.byte_of_dev hx 0xFF02).symm.trans hctl)

theorem Device.role_eq_master {x : Device} (h : x.serialControl = 0xFF) : x.role = .master := if_pos h

theorem Device.role_eq_slave {x : Device} (h : x.serialControl ≠ 0xFF) : x.role = .slave := if_neg h

/-- The two ROLE codes of rule R93 tell the roles apart. -/
theorem Device.role_code_iff (x : Device) :
    (x.role.code = 0x01 ↔ x.serialControl = 0xFF) ∧ (x.role.code = 0x02 ↔ x.serialControl ≠ 0xFF) := by
  by_cases h : x.serialControl = 0xFF
  · rw [Device.role_eq_master h]
    exact ⟨iff_of_true rfl h, iff_of_false (by decide) (not_not_intro h)⟩
  · rw [Device.role_eq_slave h]
    exact ⟨iff_of_false (by decide) h, iff_of_true rfl h⟩

theorem exec_adv_master {s : State} {d : Nat} {x : Device} (hx : s.dev[d]? = some x) (hctl : s.byte d 0xFF02 = some 0xFF) :
    exec (.adv d) s = .next (masterStep s d x) := by
  have role : x.role = .master := Device.role_eq_master (Device.serialControl_of_byte hx hctl)
  exact (withDevice_some hx).trans (by simp only [serialStep, role])

theorem exec_adv_slave {s : State} {d : Nat} {x : Device} {ctl : Byte} (hx : s.dev[d]? = some x)
    (hctl : s.byte d 0xFF02 = some ctl) (hne : ctl ≠ 0xFF) : exec (.adv d) s = .next (slaveStep s d x) := by
  have role : x.role = .slave := Device.role_eq_slave (Device.serialControl_of_byte hx hctl ▸ hne)
  exact (withDevice_some hx).trans (by simp only [serialStep, role])

/-- In either role and with either status, the one response of an ADV reports the role it acted in. -/
theorem serialStep_log (s : State) (d : Nat) (x : Device) :
    ∃ status data, (serialStep s d x).log = s.log ++ [advResponse status x.role data] := by
  unfold serialStep
  split
  · next role =>
    unfold masterStep
    dsimp only
    rw [role]
    split <;> exact ⟨_, _, rfl⟩
  · next role =>
    unfold slaveStep
    rw [role]
    split <;> exact ⟨_, _, rfl⟩

/-- Settles O44: the role reported is the one that the SERIAL_CONTROL of the device at this ADV selects, so the commands before
do not matter. -/
theorem roleIsReadAtEachAdv : Obligations.RoleIsReadAtEachAdv := by
  intro is s t u d ctl _ hctl hadv
  obtain ⟨x, hx, hstep⟩ := withDevice_next hadv
  cases hstep
  obtain ⟨status, data, hlog⟩ := serialStep_log t d x
  obtain rfl := Device.serialControl_of_byte hx hctl
  exact ⟨_, hlog, x.role_code_iff⟩

/-! ### The two roles' steps (rules R193 to R200) -/

theorem State.cable_of_live {s : State} {d c : Nat} {x : Device} {v : Byte} (hx : s.dev[d]? = some x)
    (hh : s.handle d = some c) (hc : s.chan[c]? = some { live := true, value := v }) :
    s.cable x.hdl = some (c, { live := true, value := v }) :=
  State.cable_eq_some.mpr ⟨(State.handle_of_dev hx).symm.trans hh, hc, rfl⟩

theorem State.cable_of_invalid {s : State} {d : Nat} {x : Device} (hx : s.dev[d]? = some x)
    (hv : s.validHandle (s.handle d) = false) : s.cable x.hdl = none := by
  rw [State.handle_of_dev hx] at hv
  exact Option.isNone_iff_eq_none.mp (Option.isSome_eq_false_iff.mp hv)

theorem masterStep_linked {s : State} {d c : Nat} {x : Device} {ch : Channel} (hc : s.cable x.hdl = some (c, ch)) :
    masterStep s d x =
      ((s.setDev d (x.store serialDataAddr (masterNext x.serialData))).setChan c
        { ch with value := masterNext x.serialData }).respond (advResponse .ok .master (masterNext x.serialData)) := by
  simp only [masterStep, hc]

theorem masterStep_unlinked {s : State} {d : Nat} {x : Device} (hc : s.cable x.hdl = none) :
    masterStep s d x =
      (s.setDev d (x.store serialDataAddr (masterNext x.serialData))).respond
        (advResponse .noCableConnected .master (masterNext x.serialData)) := by
  simp only [masterStep, hc]

/-- The master's counter update commits whether or not there is a cable (rule R196). -/
theorem masterStep_byte {s : State} {d : Nat} {x : Device} (hx : s.dev[d]? = some x) (e b : Nat) :
    (masterStep s d x).byte e b = if e = d ∧ b = 0xFF01 then some (masterNext x.serialData) else s.byte e b := by
  unfold masterStep
  dsimp only
  split <;> exact State.byte_store serialDataAddr _ hx e b

theorem slaveStep_linked {s : State} {d c : Nat} {x : Device} {ch : Channel} (hc : s.cable x.hdl = some (c, ch)) :
    slaveStep s d x =
      (s.setDev d (x.store serialDataAddr ch.value)).respond (advResponse .ok .slave ch.value) := by
  simp only [slaveStep, hc]

theorem slaveStep_unlinked {s : State} {d : Nat} {x : Device} (hc : s.cable x.hdl = none) :
    slaveStep s d x = s.respond (advResponse .noCableConnected .slave x.serialData) := by
  simp only [slaveStep, hc]

/-- ADV changes no handle: only LNK and ULK do. -/
theorem exec_adv_handle {s t : State} {d : Nat} (h : exec (.adv d) s = .next t) (e : Nat) : t.handle e = s.handle e :=
  exec_handle h (by simp) (by simp)

/-- Settles O42: the counter update is common to the two outcomes of a master's step, which differ in the channel and the
status. -/
theorem advOfAMasterCountsAndSends : Obligations.AdvOfAMasterCountsAndSends := by
  intro s d cur hctl hcur
  obtain ⟨x, hx, rfl⟩ := State.dev_of_byte hcur
  have hadv := exec_adv_master hx hctl
  refine ⟨rfl, _, masterNext x.serialData, hadv, masterNext_toNat x.serialData, masterStep_byte hx, exec_adv_handle hadv,
    exec_nDev hadv, exec_port hadv, ?linked, ?unlinked⟩
  case linked =>
    intro c v hh hc
    rw [masterStep_linked (State.cable_of_live hx hh hc)]
    exact ⟨rfl, rfl⟩
  case unlinked =>
    intro hv
    rw [masterStep_unlinked (State.cable_of_invalid hx hv)]
    exact ⟨rfl, rfl⟩

/-- Settles O43: with a cable a slave's step is one store of the line's value, without one it is the response alone. -/
theorem advOfASlaveReceives : Obligations.AdvOfASlaveReceives := by
  intro s d ctl cur hctl hne hcur
  obtain ⟨x, hx, rfl⟩ := State.dev_of_byte hcur
  have hadv := exec_adv_slave hx hctl hne
  refine ⟨?linked, ?unlinked⟩
  case linked =>
    intro c v hh hc
    rw [slaveStep_linked (State.cable_of_live hx hh hc)] at hadv
    exact ⟨_, hadv, State.byte_store serialDataAddr v hx, exec_adv_handle hadv, exec_nDev hadv, exec_port hadv, rfl, rfl⟩
  case unlinked =>
    intro hv
    rw [hadv, slaveStep_unlinked (State.cable_of_invalid hx hv)]
    rfl

/-! ### A master and a slave on one channel (rule R206) -/

theorem runCommands_cons {i : Instr} {is : List Instr} {s t : State} (h : exec i s = .next t) :
    runCommands (i :: is) s = runCommands is t := by
  simp only [runCommands, h]

theorem runCommands_pair {i j : Instr} {s t u : State} (hi : exec i s = .next t) (hj : exec j t = .next u) :
    runCommands [i, j] s = .next u := by
  rw [runCommands_cons hi, runCommands_cons hj, runCommands]

/-- A linked master's ADV counts and drives the line; every other byte and every handle stands. -/
theorem exec_adv_linked_master {s : State} {m c : Nat} {cur old : Byte} (hctl : s.byte m 0xFF02 = some 0xFF)
    (hcur : s.byte m 0xFF01 = some cur) (hh : s.handle m = some c) (hc : s.chan[c]? = some { live := true, value := old }) :
    ∃ t, exec (.adv m) s = .next t ∧
      (∀ e b, t.byte e b = if e = m ∧ b = 0xFF01 then some (cur + 1) else s.byte e b) ∧
      (∀ e, t.handle e = s.handle e) ∧ t.chan[c]? = some { live := true, value := cur + 1 } := by
  obtain ⟨-, t, next, hadv, hnext, hbyte, hhandle, -, -, hlinked, -⟩ := advOfAMasterCountsAndSends s m cur hctl hcur
  obtain rfl : next = cur + 1 := BitVec.eq_of_toNat_eq (hnext.trans (BitVec.toNat_add cur 1).symm)
  obtain ⟨hchan, -⟩ := hlinked c old hh hc
  refine ⟨t, hadv, hbyte, hhandle, ?_⟩
  rw [hchan]
  exact (State.chan_setChan _ hc c).trans (if_pos rfl)

/-- A linked slave's ADV takes the line's value; every other byte, every handle and every channel stands. -/
theorem exec_adv_linked_slave {s : State} {v c : Nat} {ctl old : Byte} (hctl : s.byte v 0xFF02 = some ctl) (hne : ctl ≠ 0xFF)
    (hh : s.handle v = some c) (hc : s.chan[c]? = some { live := true, value := old }) :
    ∃ t, exec (.adv v) s = .next t ∧
      (∀ e b, t.byte e b = if e = v ∧ b = 0xFF01 then some old else s.byte e b) ∧
      (∀ e, t.handle e = s.handle e) ∧ t.chan = s.chan := by
  obtain ⟨x, hx, -⟩ := State.dev_of_byte hctl
  obtain ⟨hlinked, -⟩ := advOfASlaveReceives s v ctl _ hctl hne (State.byte_of_dev hx 0xFF01)
  obtain ⟨t, hadv, hbyte, hhandle, -, -, hchan, -⟩ := hlinked c old hh hc
  exact ⟨t, hadv, hbyte, hhandle, hchan⟩

/-- Settles O47: master and slave are two devices, and the first ADV leaves the other device as it was, so the second one finds
its role and its handle unchanged and the line as the first one left it. -/
theorem orderingContract : Obligations.OrderingContract := by
  intro s m v c cur ctl old hmctl hmcur hvctl hne hmh hvh hc
  have hmv : m ≠ v := by
    rintro rfl
    exact hne (Option.some.inj (hvctl.symm.trans hmctl))
  -- master first: `t1`, then `t2`
  obtain ⟨t1, madv, mbyte, mhandle, mchan⟩ := exec_adv_linked_master hmctl hmcur hmh hc
  have hvctl1 : t1.byte v 0xFF02 = some ctl := by simpa [mbyte] using hvctl
  obtain ⟨t2, madv2, mbyte2, -, mchan2⟩ := exec_adv_linked_slave hvctl1 hne ((mhandle v).trans hvh) mchan
  -- slave first: `u1`, then `u2`
  obtain ⟨u1, sadv, sbyte, shandle, schan⟩ := exec_adv_linked_slave hvctl hne hvh hc
  have hmctl1 : u1.byte m 0xFF02 = some 0xFF := by simpa [sbyte] using hmctl
  have hmcur1 : u1.byte m 0xFF01 = some cur := by simpa [sbyte, hmv] using hmcur
  obtain ⟨u2, sadv2, sbyte2, -, schan2⟩ :=
    exec_adv_linked_master hmctl1 hmcur1 ((shandle m).trans hmh) ((congrArg (·[c]?) schan).trans hc)
  refine ⟨t2, u2, runCommands_pair madv madv2, runCommands_pair sadv sadv2, ?_, ?_, ?_, ?_,
    (congrArg (·[c]?) mchan2).trans mchan, schan2⟩
  · simp [mbyte2, mbyte, hmv]
  · simp [mbyte2]
  · simp [sbyte2]
  · simp [sbyte2, sbyte, hmv.symm]

end Sys2Proof.Machine
end

section
/-! PROOFS. The exceptions family (`60_exceptions.md`): the refusals an operand can cause, and from them the refusals of every
command. -/

namespace Sys2Proof.Machine

/-! ### The refusals of an operand (rules R239, R240) -/

/-- A device operand is refused, or what is done with the device is. -/
theorem withDevice_refused_iff {s : State} {d : Nat} {k : Device → Result} {r : Refusal} :
    withDevice s d k = .refused r ↔
      (r = .noSuchDevice ∧ s.nDev ≤ d) ∨ ∃ x, s.dev[d]? = some x ∧ k x = .refused r := by
  rcases Nat.lt_or_ge d s.nDev with hd | hd
  · obtain ⟨x, hx⟩ := State.dev_some_of_lt hd
    simp [withDevice_some hx, hx, hd.not_ge]
  · have missing : s.dev[d]? = none := List.getElem?_eq_none hd
    simp [withDevice_none hd, missing, hd, eq_comm]

/-- A command whose one check is its device operand. -/
theorem withDevice_refused_iff_of_next {s : State} {d : Nat} {k : Device → Result} {r : Refusal}
    (hk : ∀ x, ∃ t, k x = .next t) : withDevice s d k = .refused r ↔ r = .noSuchDevice ∧ s.nDev ≤ d := by
  have performed : ∀ x, k x ≠ .refused r := fun x => by
    obtain ⟨t, ht⟩ := hk x
    simp [ht]
  simp [withDevice_refused_iff, performed]

/-- A command whose last check is its channel operand. -/
theorem withChannel_refused_iff_of_next {s : State} {c : Nat} {k : Channel → Result} {r : Refusal}
    (hk : ∀ ch, ∃ t, k ch = .next t) : withChannel s c k = .refused r ↔ r = .noSuchChannel ∧ s.nextCh ≤ c := by
  rcases Nat.lt_or_ge c s.nextCh with hc | hc
  · obtain ⟨ch, hch⟩ := State.chan_some_of_lt hc
    obtain ⟨t, ht⟩ := hk ch
    simp [withChannel_some hch, ht, hc.not_ge]
  · simp [withChannel_none hc, hc, eq_comm]

/-! ### The refusals of a command (rules R238 to R242) -/

/-- CNEW is refused once all identities are given (rule R241). -/
theorem exec_cnew_refused_iff {s : State} {r : Refusal} :
    exec .cnew s = .refused r ↔ r = .channelIdsExhausted ∧ 65536 ≤ s.nextCh := by
  rcases Nat.lt_or_ge s.nextCh 65536 with h | h
  · simp [exec_cnew h, h.not_ge]
  · have exhausted : exec .cnew s = .refused .channelIdsExhausted := if_neg h.not_gt
    simp [exhausted, h, eq_comm]

/-- LNK checks its device before its channel (rule R242). -/
theorem exec_lnk_refused_iff {s : State} {d c : Nat} {r : Refusal} :
    exec (.lnk d c) s = .refused r ↔
      (r = .noSuchDevice ∧ s.nDev ≤ d) ∨ (r = .noSuchChannel ∧ d < s.nDev ∧ s.nextCh ≤ c) := by
  have device_exists : (∃ x, s.dev[d]? = some x) ↔ d < s.nDev :=
    ⟨fun ⟨_, hx⟩ => State.lt_nDev_of_some hx, State.dev_some_of_lt⟩
  refine withDevice_refused_iff.trans (or_congr_right ?_)
  simp only [withChannel_refused_iff_of_next fun _ => ⟨_, rfl⟩, exists_and_right, device_exists]
  exact and_left_comm

/-- The refusals of every command by its operands: a missing device, then a channel never created, or CNEW with every identity
given. -/
theorem exec_refused_iff {i : Instr} {s : State} {r : Refusal} :
    exec i s = .refused r ↔
      (r = .noSuchDevice ∧ ∃ d, device? i = some d ∧ s.nDev ≤ d) ∨
      (r = .noSuchChannel ∧ (∀ d, device? i = some d → d < s.nDev) ∧ ∃ c, channel? i = some c ∧ s.nextCh ≤ c) ∨
      (r = .channelIdsExhausted ∧ i = .cnew ∧ 65536 ≤ s.nextCh) := by
  cases i with
  | mrd d a =>
    refine (withDevice_refused_iff_of_next fun x => ?_).trans (by simp [device?, channel?])
    split <;> exact ⟨_, rfl⟩
  | mwr d a v =>
    refine (withDevice_refused_iff_of_next fun x => ?_).trans (by simp [device?, channel?])
    split <;> exact ⟨_, rfl⟩
  | cls a => simp [exec, execCls, device?, channel?]
  | adv d => exact (withDevice_refused_iff_of_next fun _ => ⟨_, rfl⟩).trans (by simp [device?, channel?])
  | dmp d => exact (withDevice_refused_iff_of_next fun _ => ⟨_, rfl⟩).trans (by simp [device?, channel?])
  | dmpio d => exact (withDevice_refused_iff_of_next fun _ => ⟨_, rfl⟩).trans (by simp [device?, channel?])
  | cnew => exact exec_cnew_refused_iff.trans (by simp [device?, channel?])
  | cdel c => exact (withChannel_refused_iff_of_next fun _ => ⟨_, rfl⟩).trans (by simp [device?, channel?])
  | cwr c v => exact (withChannel_refused_iff_of_next fun _ => ⟨_, rfl⟩).trans (by simp [device?, channel?])
  | crd c => exact (withChannel_refused_iff_of_next fun _ => ⟨_, rfl⟩).trans (by simp [device?, channel?])
  | lnk d c => exact exec_lnk_refused_iff.trans (by simp [device?, channel?])
  | ulk d => exact (withDevice_refused_iff_of_next fun _ => ⟨_, rfl⟩).trans (by simp [device?, channel?])

/-- The commands addressed to a device (rule R84). -/
theorem device?_eq_some_iff {i : Instr} {d : Nat} :
    device? i = some d ↔
      (∃ a, i = .mrd d a) ∨ (∃ a v, i = .mwr d a v) ∨ i = .adv d ∨ i = .dmp d ∨ i = .dmpio d ∨
        (∃ c, i = .lnk d c) ∨ i = .ulk d := by
  cases i <;> simp [device?]

/-- The commands that name a channel and are addressed to no missing device: LNK is the one that is addressed to a device. -/
theorem channel?_eq_some_and_device_exists_iff {i : Instr} {c n : Nat} :
    ((∀ d, device? i = some d → d < n) ∧ channel? i = some c) ↔
      (i = .cdel c ∨ (∃ v, i = .cwr c v) ∨ i = .crd c ∨ ∃ d, d < n ∧ i = .lnk d c) := by
  cases i <;> simp [device?, channel?]

/-- Settles O16: the operands `device?` and `channel?` of `exec_refused_iff` are spelled out as the commands that have them, and
"at least 65536 identities given" is "exactly 65536" under the premise. -/
theorem refusalsAreExactlyTheListedOnes : Obligations.RefusalsAreExactlyTheListedOnes := by
  intro i s r hn
  have exhausted : 65536 ≤ s.nextCh ↔ s.nextCh = 65536 := ⟨fun h => hn.antisymm h, fun h => h.ge⟩
  have missingChannel : ((∀ d, device? i = some d → d < s.nDev) ∧ ∃ c, channel? i = some c ∧ s.nextCh ≤ c) ↔
      ∃ c, s.nextCh ≤ c ∧
        (i = .cdel c ∨ (∃ v, i = .cwr c v) ∨ i = .crd c ∨ ∃ d, d < s.nDev ∧ i = .lnk d c) := by
    simp only [← channel?_eq_some_and_device_exists_iff]
    exact ⟨fun ⟨hd, c, hc, hle⟩ => ⟨c, hle, hd, hc⟩, fun ⟨c, hle, hd, hc⟩ => ⟨hd, c, hc, hle⟩⟩
  rw [exec_refused_iff, missingChannel, exhausted]
  simp only [device?_eq_some_iff, and_comm]

end Sys2Proof.Machine
end

section
/-! PROOFS. Encoding and assembler (`30_encoding.md`): decode and encode agree on every command, the response word's layout, and
what each line assembles to. -/

namespace Sys2Proof

open Sys2Proof.Machine

/-! ### Decode and encode (rules R81, R84 to R88) -/

/-- The value of a command's ADDR field, 0 where its opcode does not use one (rules R84, R87). -/
def Instr.addrField : Instr → Nat
  | .mrd _ a => a
  | .mwr _ a _ => a
  | .cls a => a
  | .adv _ => 0
  | .dmp _ => 0
  | .dmpio _ => 0
  | .cnew => 0
  | .cdel _ => 0
  | .cwr _ _ => 0
  | .crd _ => 0
  | .lnk _ _ => 0
  | .ulk _ => 0

/-- The value of a command's DATA field, 0 where its opcode does not use one (rules R84, R87). -/
def Instr.dataField : Instr → Byte
  | .mrd _ _ => 0
  | .mwr _ _ v => v
  | .cls _ => 0
  | .adv _ => 0
  | .dmp _ => 0
  | .dmpio _ => 0
  | .cnew => 0
  | .cdel _ => 0
  | .cwr _ v => v
  | .crd _ => 0
  | .lnk _ _ => 0
  | .ulk _ => 0

/-- The encoder packs the five fields of the command. -/
theorem encode_eq_packWord (i : Instr) :
    encode i = packWord i.opcode.code ((device? i).getD 0) ((channel? i).getD 0) i.addrField i.dataField.toNat := by
  cases i <;> rfl

/-- The fields of a command give that command back. -/
theorem decodeFields_of_fields (i : Instr) :
    decodeFields i.opcode ((device? i).getD 0) ((channel? i).getD 0) i.addrField i.dataField = .command i := by
  cases i <;> rfl

/-- A command is well-formed when its field values fit the fields' widths. -/
theorem Instr.wf_iff (i : Instr) :
    i.wf = true ↔ (device? i).getD 0 < 256 ∧ (channel? i).getD 0 < 65536 ∧ i.addrField < 16777216 := by
  cases i <;> simp [Instr.wf, devFits, chFits, addrFits, device?, channel?, Instr.addrField]

/-- Field values that give a command are that command's fields: those it does not use are 0. -/
theorem fields_of_decodeFields {k : Opcode} {d c a : Nat} {v : Byte} {i : Instr} (h : decodeFields k d c a v = .command i) :
    i.opcode = k ∧ (device? i).getD 0 = d ∧ (channel? i).getD 0 = c ∧ i.addrField = a ∧ i.dataField = v := by
  cases k <;>
  · obtain ⟨unusedZero, rfl⟩ := acceptIf_command h
    simp_all [Instr.opcode, device?, channel?, Instr.addrField, Instr.dataField]

/-- Settles O1: the encoder packs the command's fields, which fit their widths, and the decoder reads them back. -/
theorem encodedCommandDecodesBack : Obligations.EncodedCommandDecodesBack := by
  intro i hwf
  obtain ⟨hd, hc, ha⟩ := i.wf_iff.mp hwf
  rw [encode_eq_packWord, decode_packWord _ _ hd hc ha, decodeFields_of_fields]

/-- Settles O2: the fields of the word are those of the command, they fit their widths, and a word is packed from its own
fields. -/
theorem decodedWordEncodesBack : Obligations.DecodedWordEncodesBack := by
  intro w i h
  obtain ⟨hop, hfields⟩ := decode_command h
  obtain ⟨-, hd, hc, ha, hv⟩ := fields_of_decodeFields hfields
  refine ⟨i.wf_iff.mpr ⟨?_, ?_, ?_⟩, ?_⟩
  · exact hd ▸ (field48 w).isLt
  · exact hc ▸ (field32 w).isLt
  · exact ha ▸ (field8 w).isLt
  · rw [encode_eq_packWord, ← hop, hd, hc, ha, hv, packWord_fields]

/-- Settles O6: nine closed words, read by the decoder. -/
theorem writtenOutWordsDecode : Obligations.WrittenOutWordsDecode := by
  unfold Obligations.WrittenOutWordsDecode
  decide

/-! ### The response word (rules R90, R91) -/

theorem Status.code_lt (st : Status) : st.code < 0x03 := by
  cases st <;> decide

/-- Settles O8: the word is packed from the response's fields, each of which fits its width. -/
theorem responseWordHoldsItsFields : Obligations.ResponseWordHoldsItsFields := by
  intro r
  have hst := Status.code_lt r.status
  have hlt : r.status.code < 256 := by omega
  have hop := field56_pack hlt r.info.isLt r.wide.isLt r.size.isLt r.data.isLt
  refine ⟨?_, ?_, ?_, ?_, ?_, hop.trans_lt hst⟩
  · exact hop.trans (by cases r.status <;> rfl)
  · exact BitVec.eq_of_toNat_eq (field48_pack hlt r.info.isLt r.wide.isLt r.size.isLt r.data.isLt)
  · exact BitVec.eq_of_toNat_eq (field32_pack hlt r.info.isLt r.wide.isLt r.size.isLt r.data.isLt)
  · exact BitVec.eq_of_toNat_eq (field8_pack hlt r.info.isLt r.wide.isLt r.size.isLt r.data.isLt)
  · exact BitVec.eq_of_toNat_eq (field0_pack hlt r.info.isLt r.wide.isLt r.size.isLt r.data.isLt)

end Sys2Proof

namespace Sys2Proof.Machine

/-! ### The assembler (rules R95, R96) -/

theorem devFits_iff {d : Nat} : devFits d = true ↔ d < 256 := decide_eq_true_iff

theorem chFits_iff {c : Nat} : chFits c = true ↔ c < 65536 := decide_eq_true_iff

theorem addrFits_iff {a : Nat} : addrFits a = true ↔ a ≤ 0xFFFFFF := decide_eq_true_iff.trans Nat.lt_succ_iff

/-- Commands are assembled exactly under the condition that says they all fit. -/
theorem whenFit_eq_ite {is : List Instr} {p : Prop} [Decidable p] (h : is.all Instr.wf = true ↔ p) :
    whenFit is = if p then some is else none := by
  simp only [whenFit, h]

theorem whenFit_eq_some {is js : List Instr} (h : whenFit is = some js) : ∀ i ∈ js, i.wf = true := by
  unfold whenFit at h
  split at h
  · next hall =>
    cases h
    exact List.all_eq_true.mp hall
  · cases h

/-- Commands with a byte operand are assembled exactly when the byte is at most 0xFF and the commands fit, which does not
depend on the byte. -/
theorem byteOperand_bind_whenFit {v : Nat} {f : Byte → List Instr} {p : Prop} [Decidable p]
    (h : ∀ b, (f b).all Instr.wf = true ↔ p) :
    ((byteOperand v).bind fun b => whenFit (f b)) = if p ∧ v ≤ 0xFF then some (f (BitVec.ofNat 8 v)) else none := by
  by_cases hv : v < 256
  · have hle : v ≤ 0xFF := Nat.lt_succ_iff.mp hv
    simp [byteOperand, hv, hle, whenFit_eq_ite (h _)]
  · have hle : ¬ v ≤ 0xFF := by omega
    simp [byteOperand, hv, hle]

/-- Whatever a line assembles to has passed `whenFit`. -/
theorem whenFit_of_assemble {name : Asm.Name} {os : List Asm.Operand} {is : List Instr} (h : assemble name os = some is) :
    ∃ js, whenFit js = some is := by
  unfold assemble at h
  split at h
  case h_2 | h_9 | h_15 | h_17 =>
    obtain ⟨b, -, hb⟩ := Option.bind_eq_some_iff.mp h
    exact ⟨_, hb⟩
  case h_19 => cases h
  all_goals exact ⟨_, h⟩

theorem devOperands_map (ds : List Nat) : devOperands (ds.map Asm.Operand.dev) = some ds := by
  induction ds with
  | nil => rfl
  | cons d ds ih => simp [devOperands, ih]

/-- Settles O9: every line goes through `whenFit`, whose condition for each command is that of its operands. -/
theorem assembledCommandsFit : Obligations.AssembledCommandsFit := by
  refine ⟨fun name os is h => ?fit, fun d a => ?mrd, fun d a v => ?mwr, fun a => ?cls, fun d => ?adv, fun d => ?dmp,
    fun d => ?dmpio, rfl, fun c => ?cdel, fun c v => ?cwr, fun c => ?crd, fun d c => ?lnk, fun d => ?ulk, fun d v => ?setSD⟩
  case fit =>
    obtain ⟨js, hjs⟩ := whenFit_of_assemble h
    exact whenFit_eq_some hjs
  case mrd => exact whenFit_eq_ite (by simp [Instr.wf, devFits_iff, addrFits_iff])
  case mwr =>
    simp only [← and_assoc]
    exact byteOperand_bind_whenFit (f := fun b => [.mwr d a b]) (by simp [Instr.wf, devFits_iff, addrFits_iff])
  case cls => exact whenFit_eq_ite (by simp [Instr.wf, addrFits_iff])
  case adv => exact whenFit_eq_ite (by simp [Instr.wf, devFits_iff])
  case dmp => exact whenFit_eq_ite (by simp [Instr.wf, devFits_iff])
  case dmpio => exact whenFit_eq_ite (by simp [Instr.wf, devFits_iff])
  case cdel => exact whenFit_eq_ite (by simp [Instr.wf, chFits_iff])
  case cwr => exact byteOperand_bind_whenFit (f := fun b => [.cwr c b]) (by simp [Instr.wf, chFits_iff])
  case crd => exact whenFit_eq_ite (by simp [Instr.wf, chFits_iff])
  case lnk => exact whenFit_eq_ite (by simp [Instr.wf, devFits_iff, chFits_iff])
  case ulk => exact whenFit_eq_ite (by simp [Instr.wf, devFits_iff])
  case setSD =>
    exact byteOperand_bind_whenFit (f := fun b => expand (.setSD d b))
      (by simp [expand, Instr.wf, devFits_iff, addrFits_iff, serialDataAddr])

/-- Settles O52: a pseudo-instruction's line goes through `whenFit` on its expansion. -/
theorem pseudoInstructionsAssembleToTheirExpansions : Obligations.PseudoInstructionsAssembleToTheirExpansions := by
  obtain ⟨-, -, -, -, -, -, -, -, -, -, -, -, -, setSD⟩ := assembledCommandsFit
  refine ⟨fun d => ?setMaster, fun d => ?setSlave, setSD, fun d => ?getSD, fun ds => ?step, fun a b k => ?pair⟩
  case setMaster => exact whenFit_eq_ite (by simp [expand, Instr.wf, devFits_iff, addrFits_iff, serialControlAddr])
  case setSlave => exact whenFit_eq_ite (by simp [expand, Instr.wf, devFits_iff, addrFits_iff, serialControlAddr])
  case getSD => exact whenFit_eq_ite (by simp [expand, Instr.wf, devFits_iff, addrFits_iff, serialDataAddr])
  case step =>
    cases ds with
    | nil => rfl
    | cons d ds =>
      have operands : assemble .step ((d :: ds).map .dev) = whenFit ((d :: ds).map .adv) := by
        change (devOperands ((d :: ds).map .dev)).bind _ = _
        rw [devOperands_map]
        rfl
      rw [operands]
      exact whenFit_eq_ite (by simp [Instr.wf, devFits_iff])
  case pair => exact whenFit_eq_ite (by simp [expand, Instr.wf, devFits_iff, chFits_iff, and_assoc])

end Sys2Proof.Machine
end

section
/-! PROOFS. The response of every command and the invariant of the block: the status each command reports and when, that
every response has an allowed shape, and that reset meets the invariant and every step keeps it. -/

namespace Sys2Proof.Machine

/-! ### The status of a response (`60_exceptions.md` section 1) -/

/-- The status of a command on a channel, or on a device through its handle: whether there is a live line. -/
def cableStatus (live : Bool) : Status := if live then .ok else .noCableConnected

/-- The status a command reports when it is performed in this state. -/
def statusOf (s : State) : Instr → Status
  | .mrd _ a => if 0xFFFF < a then .outOfRange else .ok
  | .mwr _ a _ => if 0xFFFF < a then .outOfRange else .ok
  | .cls _ => .ok
  | .adv d => cableStatus (s.validHandle (s.handle d))
  | .dmp _ => .ok
  | .dmpio _ => .ok
  | .cnew => .ok
  | .cdel c => cableStatus (s.isLive c)
  | .cwr c _ => cableStatus (s.isLive c)
  | .crd c => cableStatus (s.isLive c)
  | .lnk _ c => cableStatus (s.isLive c)
  | .ulk _ => .ok

theorem cableStatus_eq_noCableConnected {live : Bool} : cableStatus live = .noCableConnected ↔ live = false := by
  cases live <;> simp [cableStatus]

theorem cableStatus_ne_outOfRange (live : Bool) : cableStatus live ≠ .outOfRange := by
  cases live <;> simp [cableStatus]

theorem Channel.status_eq {s : State} {c : Nat} {ch : Channel} (hc : s.chan[c]? = some ch) :
    ch.status = cableStatus (s.isLive c) := by
  rw [isLive_of_some hc]
  rfl

/-! ### The shape of a response (rules R92, R93, R115) -/

theorem Response.wf_plain {status : Status} {wide : BitVec 16} {data : Byte} :
    ({ status := status, wide := wide, data := data } : Response).wf = true := by
  simp [Response.wf]

theorem advResponse_wf (status : Status) (role : Role) (data : Byte) : (advResponse status role data).wf = true := by
  cases role <;> simp [advResponse, Role.code, Response.wf]

theorem classify_wf (a : Nat) : (classify a).wf = true := by
  have reserved_bits : ∀ (b : Bool) (id : RegionId), (clsInfo b id).extractLsb' 2 2 = 0 := fun b id => by
    cases b <;> cases id <;> rfl
  unfold classify
  split
  · simp [Response.wf, reserved_bits]
  · rfl

/-- A line from `lo` to at most 8 addresses on holds 1 to 8 bytes. -/
theorem byteLine_wf (m : Memory) {lo hi : Nat} (h1 : lo ≤ hi) (h2 : hi ≤ lo + 7) : (byteLine m lo hi).wf = true := by
  simp only [byteLine, Record.wf, List.length_map, List.length_range, Bool.and_eq_true, decide_eq_true_eq]
  omega

/-- Every line of a region has a byte: the last one starts inside the region. -/
theorem regionLines_wf (m : Memory) {r : Region} (hr : r ∈ regionTable) : ∀ l ∈ regionLines m r, l.wf = true := by
  obtain ⟨-, hstop⟩ := regionTable_sizes r hr
  intro l hl
  obtain ⟨k, hk, rfl⟩ := List.mem_map.mp hl
  have := List.mem_range.mp hk
  exact byteLine_wf m (by omega) (by omega)

theorem regionRecords_wf (m : Memory) {r : Region} (hr : r ∈ regionTable) : ∀ l ∈ regionRecords m r, l.wf = true := by
  intro l hl
  simp only [regionRecords, List.mem_append, List.mem_singleton] at hl
  obtain (rfl | hl) | rfl := hl
  · rfl
  · split at hl
    · obtain rfl := List.mem_singleton.mp hl
      rfl
    · exact regionLines_wf m hr l hl
  · rfl

theorem dumpRecords_wf (m : Memory) : (dumpRecords m).all Record.wf = true := by
  refine List.all_eq_true.mpr fun l hl => ?_
  obtain ⟨r, hr, hl⟩ := List.mem_flatMap.mp hl
  exact regionRecords_wf m hr l hl

theorem dumpIoRecords_wf (m : Memory) : (dumpIoRecords m).all Record.wf = true := by
  refine List.all_eq_true.mpr fun l hl => ?_
  obtain ⟨k, -, rfl⟩ := List.mem_map.mp hl
  exact byteLine_wf m (by omega) (by omega)

theorem Response.wf_records {rs : List Record} (h : rs.all Record.wf = true) : ({ records := rs } : Response).wf = true := by
  simp [Response.wf, h]

/-! ### The response of every command -/

theorem serialStep_response (s : State) {d : Nat} {x : Device} (hx : s.dev[d]? = some x) :
    ∃ data, (serialStep s d x).log =
      s.log ++ [advResponse (cableStatus (s.validHandle (s.handle d))) x.role data] := by
  rw [State.handle_of_dev hx, State.validHandle]
  unfold serialStep
  cases hr : x.role with
  | master =>
    cases hc : s.cable x.hdl with
    | none => exact ⟨_, congrArg State.log (masterStep_unlinked hc)⟩
    | some p => exact ⟨_, congrArg State.log (masterStep_linked (c := p.1) (ch := p.2) hc)⟩
  | slave =>
    cases hc : s.cable x.hdl with
    | none => exact ⟨_, congrArg State.log (slaveStep_unlinked hc)⟩
    | some p => exact ⟨_, congrArg State.log (slaveStep_linked (d := d) (c := p.1) (ch := p.2) hc)⟩

/-- The one response a command appends has the status `statusOf` says and an allowed shape. -/
theorem exec_response {i : Instr} {s t : State} (h : exec i s = .next t) :
    ∃ r : Response, t.log = s.log ++ [r] ∧ r.status = statusOf s i ∧ r.wf = true := by
  cases i with
  | mrd d a =>
    obtain ⟨x, hx, -⟩ := withDevice_next h
    rcases Nat.lt_or_ge 0xFFFF a with ha | ha
    · cases (readStore_out_of_range (legacy := Config.legacyReadBound) (State.lt_nDev_of_some hx) ha).symm.trans h
      exact ⟨_, rfl, (if_pos ha).symm, Response.wf_plain⟩
    · cases (readStore_in_range (legacy := Config.legacyReadBound) (State.byte_of_dev hx a) ha).symm.trans h
      exact ⟨_, rfl, (if_neg ha.not_gt).symm, Response.wf_plain⟩
  | mwr d a v =>
    obtain ⟨x, hx, -⟩ := withDevice_next h
    rcases Nat.lt_or_ge 0xFFFF a with ha | ha
    · cases (exec_mwr_out_of_range v (State.lt_nDev_of_some hx) ha).symm.trans h
      exact ⟨_, rfl, (if_pos ha).symm, Response.wf_plain⟩
    · cases (exec_mwr_in_range v hx ha).symm.trans h
      exact ⟨_, rfl, (if_neg ha.not_gt).symm, Response.wf_plain⟩
  | cls a =>
    cases h
    refine ⟨_, rfl, ?_, classify_wf a⟩
    unfold classify
    split <;> rfl
  | adv d =>
    obtain ⟨x, hx, h⟩ := withDevice_next h
    cases h
    obtain ⟨data, hlog⟩ := serialStep_response s hx
    exact ⟨_, hlog, rfl, advResponse_wf _ _ _⟩
  | dmp d =>
    obtain ⟨x, hx, h⟩ := withDevice_next h
    cases h
    exact ⟨_, rfl, rfl, Response.wf_records (dumpRecords_wf x.mem)⟩
  | dmpio d =>
    obtain ⟨x, hx, h⟩ := withDevice_next h
    cases h
    exact ⟨_, rfl, rfl, Response.wf_records (dumpIoRecords_wf x.mem)⟩
  | cnew =>
    have room : s.nextCh < 65536 := by
      by_contra full
      cases (if_neg full).symm.trans h
    cases (exec_cnew room).symm.trans h
    exact ⟨_, rfl, rfl, Response.wf_plain⟩
  | cdel c =>
    obtain ⟨ch, hc, h⟩ := withChannel_next h
    cases h
    refine ⟨{ status := ch.status }, ?_, Channel.status_eq hc, Response.wf_plain⟩
    split <;> rfl
  | cwr c v =>
    obtain ⟨ch, hc, h⟩ := withChannel_next h
    cases h
    refine ⟨{ status := ch.status }, ?_, Channel.status_eq hc, Response.wf_plain⟩
    split <;> rfl
  | crd c =>
    obtain ⟨ch, hc, h⟩ := withChannel_next h
    cases h
    exact ⟨_, rfl, Channel.status_eq hc, Response.wf_plain⟩
  | lnk d c =>
    obtain ⟨x, hx, h⟩ := withDevice_next h
    obtain ⟨ch, hc, h⟩ := withChannel_next h
    cases h
    exact ⟨_, rfl, Channel.status_eq hc, Response.wf_plain⟩
  | ulk d =>
    obtain ⟨x, hx, h⟩ := withDevice_next h
    cases h
    exact ⟨_, rfl, rfl, Response.wf_plain⟩

theorem exec_status {i : Instr} {s t : State} {r : Response} (h : exec i s = .next t) (hlog : t.log = s.log ++ [r]) :
    r.status = statusOf s i := by
  obtain ⟨r', hlog', hst, -⟩ := exec_response h
  obtain rfl : r = r' := by simpa using hlog.symm.trans hlog'
  exact hst

theorem statusOf_eq_outOfRange_iff {s : State} {i : Instr} :
    statusOf s i = .outOfRange ↔ ∃ d a, 0xFFFF < a ∧ (i = .mrd d a ∨ ∃ v, i = .mwr d a v) := by
  cases i <;> simp [statusOf, cableStatus_ne_outOfRange]

theorem statusOf_eq_noCableConnected_iff {s : State} {i : Instr} :
    statusOf s i = .noCableConnected ↔
      (∃ d, i = .adv d ∧ s.validHandle (s.handle d) = false) ∨
      ∃ c, s.isLive c = false ∧ (i = .cdel c ∨ (∃ v, i = .cwr c v) ∨ i = .crd c ∨ ∃ d, i = .lnk d c) := by
  cases i <;> simp [statusOf, cableStatus_eq_noCableConnected, ite_eq_iff]

/-- Settles O17: a performed command reports `statusOf`, whose error values have these causes. -/
theorem statusesComeFromTheListedCauses : Obligations.StatusesComeFromTheListedCauses := by
  intro i s t r h hlog
  rw [exec_status h hlog]
  exact ⟨statusOf_eq_outOfRange_iff, statusOf_eq_noCableConnected_iff⟩

/-! ### The invariant (`10_state.md`) -/

/-- Settles O12: the devices of `construct` hold the canonical store of `MEM_INIT` and no handle; pool and log are empty. -/
theorem resetMeetsTheInvariant : Obligations.ResetMeetsTheInvariant := by
  refine ⟨⟨one_le_nDev.trans_eq (State.nDev_construct _ _).symm, (State.nDev_construct _ _).trans_le nDev_le_256⟩, ?devices,
    Nat.zero_le _, fun r hr => absurd hr List.not_mem_nil⟩
  case devices =>
    intro x hx
    obtain rfl := List.eq_of_mem_replicate hx
    exact ⟨Memory.wf_ofInit _, rfl⟩

theorem State.handleCreated_iff {s : State} {h : Option Nat} :
    s.handleCreated h = true ↔ ∀ c, h = some c → c < s.nextCh := by
  cases h <;> simp [State.handleCreated]

/-- What the invariant says of one device: a canonical store and no handle of a channel never created. -/
def State.DeviceOk (s : State) (x : Device) : Prop := x.mem.wf ∧ s.handleCreated x.hdl = true

theorem State.DeviceOk.mono {s t : State} {x : Device} (h : s.DeviceOk x) (hn : s.nextCh ≤ t.nextCh) : t.DeviceOk x := by
  obtain ⟨hmem, hhdl⟩ := h
  exact ⟨hmem, State.handleCreated_iff.mpr fun c hc => (State.handleCreated_iff.mp hhdl c hc).trans_le hn⟩

theorem State.DeviceOk.store {s : State} {x : Device} {a : Nat} (h : s.DeviceOk x) (v : Byte) (ha : a ≤ 0xFFFF) :
    s.DeviceOk (x.store a v) := by
  obtain ⟨hmem, hhdl⟩ := h
  exact ⟨Memory.wf_write v hmem (Nat.lt_succ_of_le ha), hhdl⟩

theorem State.DeviceOk.setHandle {s : State} {x : Device} {h : Option Nat} (hx : s.DeviceOk x)
    (hh : s.handleCreated h = true) : s.DeviceOk (x.setHandle h) := by
  obtain ⟨hmem, -⟩ := hx
  exact ⟨hmem, hh⟩

/-- Replacing one device by one that is in order keeps all devices in order. -/
theorem State.devices_setDev {s : State} {d : Nat} {y : Device} (hs : ∀ x ∈ s.dev, s.DeviceOk x) (hy : s.DeviceOk y) :
    ∀ x ∈ (s.setDev d y).dev, s.DeviceOk x := by
  intro x hx
  obtain hx | rfl := List.mem_or_eq_of_mem_set hx
  · exact hs x hx
  · exact hy

theorem Effect.nextCh_le {s t : State} {i : Instr} (h : Effect s i t) : s.nextCh ≤ t.nextCh := by
  by_cases hi : i = .cnew
  · subst hi
    rw [h.of_cnew, State.nextCh_addChan]
    omega
  · exact (h.nextCh_eq hi).ge

/-- Every effect keeps the devices in order: a store by MWR or ADV is inside 0..65535, and LNK names a created channel. -/
theorem Effect.devicesOk {s t : State} {i : Instr} (h : Effect s i t) (hs : ∀ x ∈ s.dev, s.DeviceOk x) :
    ∀ x ∈ t.dev, s.DeviceOk x := by
  have ok : ∀ {d : Nat} {x : Device}, s.dev[d]? = some x → s.DeviceOk x := fun hx => hs _ (List.mem_of_getElem? hx)
  cases h with
  | unchanged => exact hs
  | create => exact hs
  | endLife => exact hs
  | drive => exact hs
  | store d x a v hx ha => exact State.devices_setDev hs ((ok hx).store v ha)
  | count d x v hx => exact State.devices_setDev hs ((ok hx).store v (by decide))
  | send d x v c ch hx => exact State.devices_setDev hs ((ok hx).store v (by decide))
  | link d c x ch hx hc =>
    exact State.devices_setDev hs ((ok hx).setHandle (decide_eq_true (State.lt_nextCh_of_some hc)))
  | unlink d x hx => exact State.devices_setDev hs ((ok hx).setHandle rfl)

/-- CNEW adds a channel only below 2^16. -/
theorem Effect.nextCh_le_maxChannels {s t : State} {i : Instr} (h : Effect s i t) (hs : s.nextCh ≤ Config.maxChannels) :
    t.nextCh ≤ Config.maxChannels := by
  by_cases hi : i = .cnew
  · subst hi
    cases h with
    | unchanged _ hne => exact absurd rfl hne
    | create hn => exact (State.nextCh_addChan s _).trans_le hn
  · exact (h.nextCh_eq hi).trans_le hs

/-- Every performed command keeps the invariant. -/
theorem exec_inv {i : Instr} {s t : State} (h : exec i s = .next t) (hs : s.Inv) : t.Inv := by
  obtain ⟨hn, hdev, hch, hlog⟩ := hs
  obtain ⟨r, htlog, -, hr⟩ := exec_response h
  have hnDev := exec_nDev h
  obtain ⟨s', r', rfl, he⟩ := exec_next h
  refine ⟨hnDev ▸ hn, ?devices, he.nextCh_le_maxChannels hch, ?log⟩
  case devices => exact fun x hx => (he.devicesOk hdev x hx).mono (t := s'.respond r') he.nextCh_le
  case log =>
    intro q hq
    rw [htlog, List.mem_append, List.mem_singleton] at hq
    obtain hq | rfl := hq
    · exact hlog q hq
    · exact hr

/-- Settles O13: a step does nothing, or it performs a command on the state without that command's word. -/
theorem stepKeepsTheInvariant : Obligations.StepKeepsTheInvariant := by
  intro s t hs h
  obtain ⟨-, rfl⟩ | ⟨w, ws, i, -, -, h⟩ := step_next h
  · exact hs
  · exact exec_inv h hs

/-! ### The step (rules R68, R238) -/

theorem step_of_command {s : State} {w : Word} {ws : List Word} {i : Instr} (hp : s.port = w :: ws)
    (hd : decode w = .command i) : step s = exec i { s with port := ws } := by
  simp only [step, takeCommand_cons hp, performWord, hd]

/-- Settles O10: a step performs what the next word decodes to, and the encoding of a well-formed command decodes to it. -/
theorem stepPerformsTheIssuedCommand : Obligations.StepPerformsTheIssuedCommand := by
  refine fun s => ⟨fun hp => ?idle, fun i ws hwf hp => step_of_command hp (encodedCommandDecodesBack i hwf), fun w ws hp =>
    ⟨fun i hd => step_of_command hp hd, fun hd => step_of_rejected hp hd, fun hd => step_of_rejected hp hd⟩⟩
  case idle => simp only [step, takeCommand_nil hp]

end Sys2Proof.Machine
end

section
/-! PROOFS. Runs of commands: what a performed command keeps of a byte, a dangling handle and a line, and from it the round trips
that hold whatever commands come between. -/

namespace Sys2Proof.Machine

/-! ### Runs -/

/-- What every command of a run keeps holds after the run. -/
theorem runCommands_keeps {P : State → Prop} {is : List Instr} {s t : State}
    (hstep : ∀ i ∈ is, ∀ s t, P s → exec i s = .next t → P t) (hs : P s) (h : runCommands is s = .next t) : P t := by
  induction is generalizing s with
  | nil =>
    cases h
    exact hs
  | cons i is ih =>
    obtain ⟨hi, hrest⟩ := List.forall_mem_cons.mp hstep
    unfold runCommands at h
    split at h
    · next s' hs' => exact ih hrest (hi s s' hs hs') h
    · cases h
    · cases h

/-! ### A store byte between its writes (rule R146) -/

/-- A byte is changed by MWR to it and, if it is SERIAL_DATA, by ADV of its device, and by nothing else. -/
theorem Effect.byte_eq {s t : State} {i : Instr} {d a : Nat} (h : Effect s i t) (hw : ∀ v, i ≠ .mwr d a v)
    (ha : a = 0xFF01 → i ≠ .adv d) : t.byte d a = s.byte d a := by
  cases h with
  | unchanged => rfl
  | create => rfl
  | endLife => rfl
  | drive => rfl
  | store e x b v hx =>
    rw [State.byte_store b v hx, if_neg]
    rintro ⟨rfl, rfl⟩
    exact hw v rfl
  | count e x v hx =>
    rw [State.byte_store _ v hx, if_neg]
    rintro ⟨rfl, rfl⟩
    exact ha rfl rfl
  | send e x v c ch hx =>
    rw [State.byte_setChan, State.byte_store _ v hx, if_neg]
    rintro ⟨rfl, rfl⟩
    exact ha rfl rfl
  | link e c x ch hx => exact State.byte_setHandle _ hx d a
  | unlink e x hx => exact State.byte_setHandle _ hx d a

theorem exec_byte {i : Instr} {s t : State} {d a : Nat} (h : exec i s = .next t) (hw : ∀ v, i ≠ .mwr d a v)
    (ha : a = 0xFF01 → i ≠ .adv d) : t.byte d a = s.byte d a := by
  obtain ⟨s', r, rfl, he⟩ := exec_next h
  exact he.byte_eq hw ha

/-- After MWR inside the store the byte is the one written. -/
theorem exec_mwr_byte {s t : State} {d a : Nat} {v : Byte} (ha : a ≤ 0xFFFF) (h : exec (.mwr d a v) s = .next t) :
    t.byte d a = some v := by
  obtain ⟨x, hx, -⟩ := withDevice_next h
  cases (exec_mwr_in_range v hx ha).symm.trans h
  exact (State.byte_store a v hx d a).trans (if_pos ⟨rfl, rfl⟩)

/-- Settles O22: the byte is written, every command between keeps it, and MRD answers the byte it finds. -/
theorem storeRoundTrip : Obligations.StoreRoundTrip := by
  intro s t u d a v is ha hw hkeep hrun
  have step : ∀ i ∈ is, ∀ s t : State, s.byte d a = some v → exec i s = .next t → t.byte d a = some v := by
    intro i hi s t hs h
    obtain ⟨hmwr, hadv⟩ := hkeep i hi
    exact (exec_byte h hmwr hadv).trans hs
  have kept : u.byte d a = some v := runCommands_keeps step (exec_mwr_byte ha hw) hrun
  exact readStore_in_range (legacy := Config.legacyReadBound) kept ha

/-- Settles O21: MRD only responds; MWR is one store at the address itself, or only responds above 0xFFFF. -/
theorem storeCommandsFrame : Obligations.StoreCommandsFrame := by
  refine ⟨fun s t d a h => ?mrd, fun s t d a v h => ?mwr⟩
  case mrd =>
    obtain ⟨r, rfl, -⟩ := readsOnly_mrd d a s t h
    exact ⟨fun _ _ => rfl, fun _ => rfl, rfl, rfl⟩
  case mwr =>
    obtain ⟨x, hx, -⟩ := withDevice_next h
    rcases Nat.lt_or_ge 0xFFFF a with ha | ha
    · cases (exec_mwr_out_of_range v (State.lt_nDev_of_some hx) ha).symm.trans h
      exact ⟨fun _ _ _ _ _ => rfl, fun _ _ _ => rfl, fun _ => rfl, rfl, rfl⟩
    · cases (exec_mwr_in_range v hx ha).symm.trans h
      have inside := storeAddr_eq_some.mpr ⟨rfl, ha⟩
      refine ⟨fun a' ha' e b hne => ?_, fun hnone => ?_, State.handle_store a v hx, rfl, State.nDev_setDev s d _⟩
      · obtain ⟨rfl, -⟩ := storeAddr_eq_some.mp ha'
        exact (State.byte_store a v hx e b).trans (if_neg hne)
      · cases hnone.symm.trans inside

/-! ### A dangling handle (rule R163) -/

/-- Device `d`'s handle names the created and dead channel `c`. -/
def State.Dangling (s : State) (d c : Nat) : Prop := s.handle d = some c ∧ c < s.nextCh ∧ s.isLive c = false

/-- No command but LNK and ULK of the device repairs its dangling handle: it keeps its handle, and dead channels stay dead. -/
theorem exec_dangling {i : Instr} {s t : State} {d c : Nat} (hs : s.Dangling d c) (h : exec i s = .next t)
    (hl : ∀ c', i ≠ .lnk d c') (hu : i ≠ .ulk d) : t.Dangling d c := by
  obtain ⟨hh, hc, hdead⟩ := hs
  obtain ⟨hgrow, -, -, hstays, -⟩ := deadChannelsStayDeadAndLiveOnesLiveUntilCdel i s t c h
  obtain ⟨hdead', -⟩ := hstays hc hdead
  exact ⟨(exec_handle h hl hu).trans hh, hc.trans_le hgrow, hdead'⟩

/-- A handle is valid when it names a live channel (rule R162). -/
theorem State.validHandle_some (s : State) (c : Nat) : s.validHandle (some c) = s.isLive c := by
  cases hc : s.chan[c]? with
  | none => simp [State.validHandle, State.cable, State.isLive, hc]
  | some ch => cases hl : ch.live <;> simp [State.validHandle, State.cable, State.isLive, hc, hl]

/-- Settles O40: every command of the run keeps the handle dangling, and a handle to a dead channel is not valid. -/
theorem danglingHandleStaysInvalid : Obligations.DanglingHandleStaysInvalid := by
  intro is s t d c hh hc hdead hkeep hrun
  have step : ∀ i ∈ is, ∀ s t : State, s.Dangling d c → exec i s = .next t → t.Dangling d c := by
    intro i hi s t hs h
    obtain ⟨hl, hu⟩ := hkeep i hi
    exact exec_dangling hs h hl hu
  obtain ⟨hh', -, hdead'⟩ := runCommands_keeps step ⟨hh, hc, hdead⟩ hrun
  exact ⟨hh', by rw [hh', State.validHandle_some, hdead']⟩

/-! ### A line between its writes (rule R174) -/

theorem Device.serialControl_of_role {x : Device} (h : x.role = .master) : x.serialControl = 0xFF := by
  by_contra hne
  cases h.symm.trans (Device.role_eq_slave hne)

/-- The record of a channel is kept by every command that neither writes its line nor ends its lifetime: a linked master's ADV
is a write to the line. -/
theorem Effect.chan_eq {s t : State} {i : Instr} {c : Nat} {ch : Channel} (h : Effect s i t) (hc : s.chan[c]? = some ch)
    (hw : s.writesLine c i = false) (hd : i ≠ .cdel c) : t.chan[c]? = some ch := by
  cases h with
  | unchanged => exact hc
  | store => exact hc
  | count => exact hc
  | link => exact hc
  | unlink => exact hc
  | create => exact (List.getElem?_append_left (State.lt_nextCh_of_some hc)).trans hc
  | endLife e old he =>
    have hce : c ≠ e := fun hce => hd (by rw [hce])
    exact ((State.chan_setChan _ he c).trans (if_neg hce)).trans hc
  | drive e v old he =>
    have hce : c ≠ e := fun hce => by simp [State.writesLine, hce] at hw
    exact ((State.chan_setChan _ he c).trans (if_neg hce)).trans hc
  | send d x v e old hx hr hcable =>
    obtain ⟨hh, he, -⟩ := State.cable_eq_some.mp hcable
    have hce : c ≠ e := by
      rintro rfl
      have master : s.byte d serialControlAddr = some 0xFF := by
        rw [State.byte_of_dev hx]
        exact congrArg some (Device.serialControl_of_role hr)
      simp [State.writesLine, master, State.handle_of_dev hx, hh] at hw
    exact ((State.chan_setChan _ he c).trans (if_neg hce)).trans hc

theorem exec_chan {i : Instr} {s t : State} {c : Nat} {ch : Channel} (h : exec i s = .next t) (hc : s.chan[c]? = some ch)
    (hw : s.writesLine c i = false) (hd : i ≠ .cdel c) : t.chan[c]? = some ch := by
  obtain ⟨s', r, rfl, he⟩ := exec_next h
  exact he.chan_eq hc hw hd

/-- A run that keeps the line keeps its channel's record. -/
theorem runCommands_chan {is : List Instr} {s t : State} {c : Nat} {ch : Channel} (hk : lineKept c is s = true)
    (hc : s.chan[c]? = some ch) (h : runCommands is s = .next t) : t.chan[c]? = some ch := by
  induction is generalizing s with
  | nil =>
    cases h
    exact hc
  | cons i is ih =>
    unfold runCommands at h
    split at h
    · next s' hs' =>
      simp only [lineKept, hs', Bool.and_eq_true, Bool.not_eq_true', decide_eq_true_eq] at hk
      obtain ⟨⟨hw, hd⟩, hk⟩ := hk
      exact ih hk (exec_chan hs' hc hw hd) h
    · cases h
    · cases h

/-- Settles O41: CWR puts the value in the record, the run keeps the record, and CRD and a slave's ADV answer from it. -/
theorem channelRoundTrip : Obligations.ChannelRoundTrip := by
  intro is s t u c v hl hw hk hrun
  obtain ⟨⟨live, old⟩, hc⟩ := State.chan_of_isLive hl
  obtain rfl : live = true := (isLive_of_some hc).symm.trans hl
  have written : t.chan[c]? = some { live := true, value := v } := by
    obtain ⟨-, -, -, hlive⟩ := cwrOverwritesTheLine s c v
    cases (hlive old hc).symm.trans hw
    exact (State.chan_setChan _ hc c).trans (if_pos rfl)
  have kept := runCommands_chan hk written hrun
  obtain ⟨-, -, -, hread⟩ := crdSamplesTheLine u c
  refine ⟨hread v kept, fun d ctl hh hctl hne => ?_⟩
  obtain ⟨w, hadv, hbyte, -⟩ := exec_adv_linked_slave hctl hne hh kept
  exact ⟨w, hadv, (hbyte d 0xFF01).trans (if_pos ⟨rfl, rfl⟩)⟩

end Sys2Proof.Machine
end

section
/-! PROOFS. Noninterference: with another store in a device, a command that is not addressed to it answers the same. -/

namespace Sys2Proof.Machine

/-- Device number `d` as it stands in a state whose device `e` has the store `m` put in. -/
def Device.withStoreAt (e : Nat) (m : Memory) (d : Nat) (x : Device) : Device := if d = e then { x with mem := m } else x

section

variable (s : State) (e : Nat) (m : Memory)

theorem State.withStore_dev (d : Nat) : (s.withStore e m).dev[d]? = (s.dev[d]?).map (Device.withStoreAt e m d) := by
  rw [State.withStore, List.getElem?_modify]
  cases s.dev[d]? with
  | none => rfl
  | some x => by_cases h : e = d <;> simp [Device.withStoreAt, h, eq_comm]

@[simp] theorem State.withStore_chan : (s.withStore e m).chan = s.chan := rfl

/-- A device put in place and a store put in commute, the store going into the device put in place where it is that one. -/
theorem State.setDev_withStore (d : Nat) (y : Device) :
    (s.withStore e m).setDev d (y.withStoreAt e m d) = (s.setDev d y).withStore e m := by
  have hdev : (s.dev.modify e fun x => { x with mem := m }).set d (y.withStoreAt e m d) =
      (s.dev.set d y).modify e fun x => { x with mem := m } := by
    apply List.ext_getElem?
    intro j
    simp only [List.getElem?_set, List.getElem?_modify, List.length_modify, Device.withStoreAt]
    by_cases hd : d = j
    · subst hd
      by_cases he : e = d <;> by_cases hlt : d < s.dev.length <;> simp [he, hlt, eq_comm]
    · simp [hd]
  unfold State.setDev State.withStore
  rw [hdev]

/-- A device whose number is another has its own store. -/
theorem Device.withStoreAt_ne {d : Nat} (h : d ≠ e) (x : Device) : x.withStoreAt e m d = x := if_neg h

theorem Device.withStoreAt_setHandle (d : Nat) (x : Device) (h : Option Nat) :
    (x.withStoreAt e m d).setHandle h = (x.setHandle h).withStoreAt e m d := by
  unfold Device.withStoreAt
  split <;> rfl

/-- A command on a device operand passes a store put in on, when what it does with the device does. -/
theorem withDevice_withStore {d : Nat} {k k' : Device → Result}
    (hk : ∀ x, k' (x.withStoreAt e m d) = mapNext (fun t => t.withStore e m) (k x)) :
    withDevice (s.withStore e m) d k' = mapNext (fun t => t.withStore e m) (withDevice s d k) := by
  unfold withDevice
  rw [State.withStore_dev]
  cases s.dev[d]? with
  | none => rfl
  | some x => exact hk x

/-- The same for another device than `e`, which is the same device with and without the store put in. -/
theorem withDevice_withStore_ne {d : Nat} {k k' : Device → Result} (hd : d ≠ e)
    (hk : ∀ x, k' x = mapNext (fun t => t.withStore e m) (k x)) :
    withDevice (s.withStore e m) d k' = mapNext (fun t => t.withStore e m) (withDevice s d k) := by
  refine withDevice_withStore s e m fun x => ?_
  rw [Device.withStoreAt_ne e m hd, hk]

theorem withChannel_withStore {c : Nat} {k k' : Channel → Result}
    (hk : ∀ ch, k' ch = mapNext (fun t => t.withStore e m) (k ch)) :
    withChannel (s.withStore e m) c k' = mapNext (fun t => t.withStore e m) (withChannel s c k) := by
  unfold withChannel
  rw [State.withStore_chan]
  cases s.chan[c]? with
  | none => rfl
  | some ch => exact hk ch

/-- Another device than `e` is set alike with and without the store put in. -/
theorem State.setDev_withStore_ne {d : Nat} (h : d ≠ e) (y : Device) :
    (s.withStore e m).setDev d y = (s.setDev d y).withStore e m := by
  rw [← State.setDev_withStore, Device.withStoreAt_ne e m h]

theorem serialStep_withStore {d : Nat} (h : d ≠ e) (x : Device) :
    serialStep (s.withStore e m) d x = (serialStep s d x).withStore e m := by
  have cable : (s.withStore e m).cable x.hdl = s.cable x.hdl := State.cable_congr rfl _
  unfold serialStep
  cases x.role with
  | master =>
    simp only [masterStep, cable, State.setDev_withStore_ne s e m h]
    split <;> rfl
  | slave =>
    simp only [slaveStep, cable, State.setDev_withStore_ne s e m h]
    split <;> rfl

/-- LNK and ULK set the handle of any device, `e` included, without looking at its store. -/
theorem State.setHandle_withStore (d : Nat) (x : Device) (h : Option Nat) :
    (s.withStore e m).setDev d ((x.withStoreAt e m d).setHandle h) = (s.setDev d (x.setHandle h)).withStore e m := by
  rw [Device.withStoreAt_setHandle, State.setDev_withStore]

/-- A command not addressed to device `e`, and LNK and ULK, answer alike whatever store stands in `e`. -/
theorem exec_withStore {i : Instr} (h : device? i ≠ some e ∨ (∃ d c, i = .lnk d c) ∨ ∃ d, i = .ulk d) :
    exec i (s.withStore e m) = mapNext (fun t => t.withStore e m) (exec i s) := by
  cases i with
  | mrd d a =>
    have hd : d ≠ e := by simpa [device?] using h
    refine withDevice_withStore_ne s e m hd fun x => ?_
    split <;> rfl
  | mwr d a v =>
    have hd : d ≠ e := by simpa [device?] using h
    refine withDevice_withStore_ne s e m hd fun x => ?_
    cases storeAddr a with
    | none => rfl
    | some b =>
      dsimp only
      rw [State.setDev_withStore_ne s e m hd]
      rfl
  | cls a => rfl
  | adv d =>
    have hd : d ≠ e := by simpa [device?] using h
    exact withDevice_withStore_ne s e m hd fun x => congrArg Host.Outcome.next (serialStep_withStore s e m hd x)
  | dmp d =>
    have hd : d ≠ e := by simpa [device?] using h
    exact withDevice_withStore_ne s e m hd fun _ => rfl
  | dmpio d =>
    have hd : d ≠ e := by simpa [device?] using h
    exact withDevice_withStore_ne s e m hd fun _ => rfl
  | cnew =>
    rcases Nat.lt_or_ge s.nextCh 65536 with room | full
    · rw [exec_cnew room, exec_cnew (s := s.withStore e m) room]
      rfl
    · rw [exec_cnew_refused_iff.mpr ⟨rfl, full⟩, exec_cnew_refused_iff (s := s.withStore e m) |>.mpr ⟨rfl, full⟩]
      rfl
  | cdel c =>
    refine withChannel_withStore s e m fun ch => ?_
    split <;> rfl
  | cwr c v =>
    refine withChannel_withStore s e m fun ch => ?_
    split <;> rfl
  | crd c => exact withChannel_withStore s e m fun ch => rfl
  | lnk d c =>
    refine withDevice_withStore s e m fun x => withChannel_withStore s e m fun ch => ?_
    rw [State.setHandle_withStore]
    rfl
  | ulk d =>
    refine withDevice_withStore s e m fun x => ?_
    rw [State.setHandle_withStore]
    rfl

end

/-- Settles O23: the answer with another store in `e` is `exec_withStore`; MWR and ADV, the commands that write a byte, write one
of the device they are addressed to. -/
theorem commandsNeitherReadNorWriteOtherStores : Obligations.CommandsNeitherReadNorWriteOtherStores := by
  refine fun i s e m h => ⟨exec_withStore s e m h, fun t ht a => exec_byte ht ?mwr ?adv⟩
  case mwr =>
    rintro v rfl
    simp [device?] at h
  case adv =>
    rintro - rfl
    simp [device?] at h

end Sys2Proof.Machine
end

section
/-! PROOFS. The serial engine under runs: the frame of ADV, the transfer state machine, linked devices over many steps, the host's
lifetime duty, and what the pseudo-instructions do. -/

namespace Sys2Proof.Machine

/-! ### The frame of ADV (`43_serial_protocol.md` section 2) -/

theorem exec_adv_byte {s t : State} {d e b : Nat} (h : exec (.adv d) s = .next t) (hne : ¬(e = d ∧ b = serialDataAddr)) :
    t.byte e b = s.byte e b := by
  refine exec_byte h (by simp) fun hb hadv => ?_
  cases hadv
  exact hne ⟨rfl, hb⟩

/-- ADV leaves the pool as it is or, of a master with a valid handle, gives the live channel it names another value. -/
theorem exec_adv_chan {s t : State} {d : Nat} (h : exec (.adv d) s = .next t) :
    t.chan = s.chan ∨
    ∃ c ch v, s.byte d 0xFF02 = some 0xFF ∧ s.handle d = some c ∧ s.chan[c]? = some ch ∧
      t.chan = (s.setChan c { ch with value := v }).chan := by
  obtain ⟨s', r, rfl, he⟩ := exec_next h
  cases he with
  | unchanged => exact .inl rfl
  | count => exact .inl rfl
  | send d x v c ch hx hr hcable =>
    obtain ⟨hh, hc, -⟩ := State.cable_eq_some.mp hcable
    have master : s.byte d 0xFF02 = some 0xFF :=
      (State.byte_of_dev hx _).trans (congrArg some (Device.serialControl_of_role hr))
    exact .inr ⟨c, ch, v, master, (State.handle_of_dev hx).trans hh, hc, rfl⟩

/-- ADV neither starts nor ends a channel's lifetime. -/
theorem exec_adv_isLive {s t : State} {d : Nat} (h : exec (.adv d) s = .next t) (c : Nat) : t.isLive c = s.isLive c := by
  cases hc : s.chan[c]? with
  | none =>
    have missing : t.nextCh ≤ c := (exec_nextCh h (by simp)).trans_le (List.getElem?_eq_none_iff.mp hc)
    exact State.isLive_congr ((List.getElem?_eq_none missing).trans hc.symm)
  | some ch =>
    obtain ⟨hcd, -⟩ | ⟨-, v, hv, -⟩ := exec_record h hc
    · cases hcd
    · rw [isLive_of_some hv, isLive_of_some hc]

/-- Settles O45: ADV stores SERIAL_DATA only, and changes the pool at most in the value of the channel a master's handle
names. -/
theorem advFrame : Obligations.AdvFrame := by
  refine fun s t d h => ⟨fun e b => exec_adv_byte h, exec_adv_handle h, exec_nDev h, exec_nextCh h (by simp),
    exec_adv_isLive h, fun c hh => ?others, fun hslave => ?slave⟩
  case others =>
    obtain hchan | ⟨c', ch, v, -, hh', hc', hchan⟩ := exec_adv_chan h
    · rw [hchan]
    · have hne : c ≠ c' := fun hcc => hh (by rw [hh', hcc])
      rw [hchan, State.chan_setChan _ hc', if_neg hne]
  case slave =>
    obtain hchan | ⟨-, -, -, master, -⟩ := exec_adv_chan h
    · exact hchan
    · exact absurd master hslave

/-! ### The transfer state machine (rule R192) -/

@[simp] theorem State.cable_setDev (s : State) (d : Nat) (x : Device) (h : Option Nat) :
    (s.setDev d x).cable h = s.cable h := State.cable_congr rfl h

@[simp] theorem State.serialDataOf_setChan (s : State) (c : Nat) (ch : Channel) (d : Nat) :
    (s.setChan c ch).serialDataOf d = s.serialDataOf d := rfl

section rows

variable {s : State} {d : Nat} {x : Device} (hx : s.dev[d]? = some x)

include hx

theorem State.serialDataOf_of_dev : s.serialDataOf d = x.serialData := by
  simp [State.serialDataOf, State.byte_of_dev hx, Device.serialData]

theorem State.setSerialData_of_dev (v : Byte) : s.setSerialData d v = s.setDev d (x.store serialDataAddr v) := by
  simp only [State.setSerialData, hx]

/-- SERIAL_DATA reads back what was put in it. -/
theorem State.serialDataOf_store (v : Byte) : (s.setDev d (x.store serialDataAddr v)).serialDataOf d = v := by
  simp [State.serialDataOf, State.byte_store _ v hx]

theorem State.handle_store_same (v : Byte) : (s.setDev d (x.store serialDataAddr v)).handle d = x.hdl :=
  (State.handle_store _ v hx d).trans (State.handle_of_dev hx)

/-- EVAL goes on to M_INC or S_RECV by the role of the device. -/
theorem Transfer.advance_eval :
    Transfer.advance d (Transfer.start s) =
      { Transfer.start s with phase := if x.role = .master then .mInc else .sRecv, role := x.role } := by
  have control : s.byte d serialControlAddr = some x.serialControl := State.byte_of_dev hx _
  by_cases h : x.serialControl = 0xFF
  · simp [Transfer.advance, Transfer.start, control, Device.role_eq_master h, h]
  · have h' : ¬x.serialControl = 255#8 := h
    simp [Transfer.advance, Transfer.start, control, Device.role_eq_slave h, h']

/-- The four rows of a master, M_INC to DONE. -/
theorem Transfer.run_master :
    ∃ next status, Transfer.run d 4 { Transfer.start s with phase := .mInc, role := .master } =
      { phase := .idle, next := next, v := 0, role := .master, status := status, block := masterStep s d x } := by
  cases hc : s.cable x.hdl <;>
    simp [Transfer.run, Transfer.advance, Transfer.start, masterStep, State.serialDataOf_of_dev hx,
      State.setSerialData_of_dev hx, State.serialDataOf_store hx, State.handle_store_same hx, hc]

/-- The rows of a slave from S_RECV: without a cable S_COMMIT is left out and the machine waits in IDLE. -/
theorem Transfer.run_slave :
    ∃ v status, Transfer.run d 4 { Transfer.start s with phase := .sRecv, role := .slave } =
      { phase := .idle, next := 0, v := v, role := .slave, status := status, block := slaveStep s d x } := by
  cases hc : s.cable x.hdl <;>
    simp [Transfer.run, Transfer.advance, Transfer.start, slaveStep, State.serialDataOf_of_dev hx,
      State.setSerialData_of_dev hx, State.serialDataOf_store hx, State.handle_of_dev hx, hc]

end rows

/-- Settles O46: EVAL selects the role, and the rows of that role end in IDLE with the block of the atomic step. -/
theorem transferMachineRefinesAdv : Obligations.TransferMachineRefinesAdv := by
  intro s d hd
  obtain ⟨x, hx⟩ := State.dev_some_of_lt hd
  have hadv : exec (.adv d) s = .next (serialStep s d x) := withDevice_some hx
  rw [hadv, Transfer.run, Transfer.advance_eval hx, serialStep]
  cases x.role with
  | master =>
    obtain ⟨next, status, hrun⟩ := Transfer.run_master hx
    simp [hrun]
  | slave =>
    obtain ⟨v, status, hrun⟩ := Transfer.run_slave hx
    simp [hrun]

/-! ### Linked devices over many steps (`43_serial_protocol.md` section 3) -/

theorem runCommands_append {is js : List Instr} {s t : State} (h : runCommands is s = .next t) :
    runCommands (is ++ js) s = runCommands js t := by
  induction is generalizing s with
  | nil =>
    cases h
    rfl
  | cons i is ih =>
    unfold runCommands at h
    split at h
    · next s' hs' => exact (runCommands_cons hs').trans (ih h)
    · cases h
    · cases h

/-- Master `m` and slave `v` are linked to the live channel `c`, and all three hold the byte `cur`. -/
structure State.InStep (s : State) (m v c : Nat) (cur ctl : Byte) : Prop where
  master : s.byte m 0xFF02 = some 0xFF
  masterData : s.byte m 0xFF01 = some cur
  slave : s.byte v 0xFF02 = some ctl
  slaveData : s.byte v 0xFF01 = some cur
  masterHandle : s.handle m = some c
  slaveHandle : s.handle v = some c
  line : s.chan[c]? = some { live := true, value := cur }

theorem exec_log_length {i : Instr} {s t : State} (h : exec i s = .next t) : t.log.length = s.log.length + 1 := by
  obtain ⟨r, hr⟩ := exec_log h
  rw [hr, List.length_append, List.length_singleton]

/-- One round, master first, counts all three up by one and appends two responses. -/
theorem State.InStep.round {s : State} {m v c : Nat} {cur ctl : Byte} (hs : s.InStep m v c cur ctl) (hne : ctl ≠ 0xFF) :
    ∃ t, runCommands [.adv m, .adv v] s = .next t ∧ t.InStep m v c (cur + 1) ctl ∧ t.log.length = s.log.length + 2 := by
  have hmv : m ≠ v := by
    rintro rfl
    exact hne (Option.some.inj (hs.slave.symm.trans hs.master))
  obtain ⟨t, hm, mbyte, mhandle, mchan⟩ := exec_adv_linked_master hs.master hs.masterData hs.masterHandle hs.line
  have slave : t.byte v 0xFF02 = some ctl := by simpa [mbyte] using hs.slave
  obtain ⟨u, hv, vbyte, vhandle, vchan⟩ := exec_adv_linked_slave slave hne ((mhandle v).trans hs.slaveHandle) mchan
  refine ⟨u, runCommands_pair hm hv, ?inStep, by rw [exec_log_length hv, exec_log_length hm]⟩
  case inStep =>
    exact {
      master := by simpa [vbyte, mbyte] using hs.master
      masterData := by simp [vbyte, mbyte, hmv]
      slave := by simpa [vbyte] using slave
      slaveData := by simp [vbyte]
      masterHandle := (vhandle m).trans ((mhandle m).trans hs.masterHandle)
      slaveHandle := (vhandle v).trans ((mhandle v).trans hs.slaveHandle)
      line := by rw [vchan, mchan] }

/-- Any number of rounds keeps the pair in step, counting modulo 256. -/
theorem State.InStep.rounds {m v c : Nat} {ctl : Byte} (hne : ctl ≠ 0xFF) (k : Nat) :
    ∀ {s : State} {cur : Byte}, s.InStep m v c cur ctl →
      ∃ t, runCommands (List.replicate k [Instr.adv m, Instr.adv v]).flatten s = .next t ∧
        t.InStep m v c (cur + BitVec.ofNat 8 k) ctl ∧ t.log.length = s.log.length + 2 * k := by
  induction k with
  | zero => exact fun {s cur} hs => ⟨s, rfl, by simpa using hs, rfl⟩
  | succ k ih =>
    intro s cur hs
    obtain ⟨t, hround, ht, tlog⟩ := hs.round hne
    obtain ⟨u, hrest, hu, ulog⟩ := ih ht
    have count : cur + 1 + BitVec.ofNat 8 k = cur + BitVec.ofNat 8 (k + 1) := by
      rw [Nat.add_comm k, BitVec.ofNat_add, BitVec.add_assoc]
      rfl
    refine ⟨u, ?_, count ▸ hu, by omega⟩
    rw [List.replicate_succ, List.flatten_cons, runCommands_append hround, hrest]

/-- Settles O48: the pair is in step after every round, by induction on the rounds. -/
theorem linkedPairStaysInStep : Obligations.LinkedPairStaysInStep := by
  intro k s m v c cur ctl hmctl hmcur hvctl hne hvcur hmh hvh hc
  obtain ⟨t, hrun, ht, hlog⟩ := State.InStep.rounds hne k ⟨hmctl, hmcur, hvctl, hvcur, hmh, hvh, hc⟩
  exact ⟨t, hrun, ht.masterData, ht.slaveData, ht.line, hlog⟩

theorem runCommands_three {i j k : Instr} {s t u w : State} (hi : exec i s = .next t) (hj : exec j t = .next u)
    (hk : exec k u = .next w) : runCommands [i, j, k] s = .next w :=
  (runCommands_cons hi).trans (runCommands_pair hj hk)

/-- Settles O49: each master's ADV leaves the other devices as they were and the line with its own byte, which a slave's ADV
takes without changing it. -/
theorem lastMasterBeforeTheSlaveWins : Obligations.LastMasterBeforeTheSlaveWins := by
  intro s m n v c cur cur' ctl old hmn hmctl hmcur hnctl hncur hvctl hne hmh hnh hvh hc
  have hnv : n ≠ v := by
    rintro rfl
    exact hne (Option.some.inj (hvctl.symm.trans hnctl))
  obtain ⟨s1, madv, mbyte, mhandle, mchan⟩ := exec_adv_linked_master hmctl hmcur hmh hc
  have hnctl1 : s1.byte n 0xFF02 = some 0xFF := by simpa [mbyte] using hnctl
  have hncur1 : s1.byte n 0xFF01 = some cur' := by simpa [mbyte, hmn.symm] using hncur
  have hvctl1 : s1.byte v 0xFF02 = some ctl := by simpa [mbyte] using hvctl
  have hnh1 : s1.handle n = some c := (mhandle n).trans hnh
  have hvh1 : s1.handle v = some c := (mhandle v).trans hvh
  -- the second master, then the slave
  obtain ⟨t2, nadv, nbyte, nhandle, nchan⟩ := exec_adv_linked_master hnctl1 hncur1 hnh1 mchan
  have hvctl2 : t2.byte v 0xFF02 = some ctl := by simpa [nbyte] using hvctl1
  obtain ⟨t3, vadv, vbyte, -, -⟩ := exec_adv_linked_slave hvctl2 hne ((nhandle v).trans hvh1) nchan
  -- the slave, then the second master
  obtain ⟨u2, vadv', vbyte', vhandle', vchan'⟩ := exec_adv_linked_slave hvctl1 hne hvh1 mchan
  have hnctl2 : u2.byte n 0xFF02 = some 0xFF := by simpa [vbyte'] using hnctl1
  have hncur2 : u2.byte n 0xFF01 = some cur' := by simpa [vbyte', hnv] using hncur1
  obtain ⟨u3, nadv', nbyte', -, nchan'⟩ :=
    exec_adv_linked_master hnctl2 hncur2 ((vhandle' n).trans hnh1) ((congrArg (·[c]?) vchan').trans mchan)
  refine ⟨t3, u3, runCommands_three madv nadv vadv, ?_, runCommands_three madv vadv' nadv', ?_, nchan'⟩
  · simp [vbyte]
  · simp [nbyte', vbyte', hnv.symm]

/-! ### The lifetime duty (rule R268) -/

theorem State.handlesLive_iff {s : State} :
    s.handlesLive = true ↔ ∀ d c, s.handle d = some c → s.isLive c = true := by
  simp only [State.handlesLive, List.all_eq_true]
  constructor
  · intro h d c hh
    obtain ⟨x, hx, hc⟩ := Option.bind_eq_some_iff.mp hh
    simpa [hc] using h x (List.mem_of_getElem? hx)
  · intro h x hmem
    obtain ⟨d, hx⟩ := List.mem_iff_getElem?.mp hmem
    split
    · rfl
    · next c hc => exact h d c ((State.handle_of_dev hx).trans hc)

/-- An ADV of an existing device is performed. -/
theorem exec_adv_performed {s : State} {d : Nat} (hd : d < s.nDev) : ∃ t, exec (.adv d) s = .next t := by
  obtain ⟨x, hx⟩ := State.dev_some_of_lt hd
  exact ⟨_, withDevice_some hx⟩

/-- Settles O51: the handle names a live channel, so the status is OK; ADV keeps every handle and every lifetime. -/
theorem liveHandlesNeverFail : Obligations.LiveHandlesNeverFail := by
  intro s d c hlive hh
  have live := State.handlesLive_iff.mp hlive
  obtain ⟨x, hx, -⟩ := Option.bind_eq_some_iff.mp hh
  obtain ⟨t, hadv⟩ := exec_adv_performed (State.lt_nDev_of_some hx)
  obtain ⟨r, hlog, hst, -⟩ := exec_response hadv
  refine ⟨t, r, hadv, hlog, hst.trans ?ok, State.handlesLive_iff.mpr fun e c' he => ?kept⟩
  case ok =>
    rw [statusOf, hh, State.validHandle_some, live d c hh]
    rfl
  case kept => exact (exec_adv_isLive hadv c').trans (live e c' ((exec_adv_handle hadv e).symm.trans he))

/-! ### The pseudo-instructions (rule R96) -/

/-- After SERIAL_CONTROL of an existing device is written its ADV is performed and reports the role the byte selects. -/
theorem runCommands_setControl_adv {s : State} {d : Nat} (v : Byte) (hd : d < s.nDev) :
    ∃ t r, runCommands [.mwr d serialControlAddr v, .adv d] s = .next t ∧ t.log.getLast? = some r ∧
      (r.info = 0x01 ↔ v = 0xFF) ∧ (r.info = 0x02 ↔ v ≠ 0xFF) := by
  obtain ⟨x, hx⟩ := State.dev_some_of_lt hd
  have hw := exec_mwr_in_range v hx (show serialControlAddr ≤ 0xFFFF by decide)
  obtain ⟨t, hadv⟩ := exec_adv_performed (hd.trans_eq (exec_nDev hw).symm)
  have hctl := exec_mwr_byte (by decide) hw
  obtain ⟨r, hlog, hrole⟩ := roleIsReadAtEachAdv [] _ _ t d v rfl hctl hadv
  exact ⟨t, r, runCommands_pair hw hadv, by simp [hlog], hrole⟩

/-- SETSD, then GETSD of an existing device answers the byte set. -/
theorem runCommands_setSD_getSD {s : State} {d : Nat} (v : Byte) (hd : d < s.nDev) :
    ∃ t, runCommands (expand (.setSD d v) ++ expand (.getSD d)) s = .next t ∧
      t.log.getLast? = some { status := .ok, data := v } := by
  obtain ⟨x, hx⟩ := State.dev_some_of_lt hd
  have hw := exec_mwr_in_range v hx (show serialDataAddr ≤ 0xFFFF by decide)
  have hr := storeRoundTrip s _ _ d serialDataAddr v [] (by decide) hw (by simp) rfl
  exact ⟨_, runCommands_pair hw hr, by simp⟩

/-- LNK of an existing device to a created channel is performed; the device's handle names it and the pool stands. -/
theorem exec_lnk_performed {s : State} {d c : Nat} (hd : d < s.nDev) (hc : c < s.nextCh) :
    ∃ t, exec (.lnk d c) s = .next t ∧ (∀ e, t.handle e = if e = d then some c else s.handle e) ∧ t.nDev = s.nDev ∧
      t.chan = s.chan := by
  obtain ⟨-, -, -, hlnk⟩ := lnkSetsTheHandle s d c
  obtain ⟨t, ht, hself, hother, -, hn, hchan, -⟩ := hlnk hd hc
  refine ⟨t, ht, fun e => ?_, hn, hchan⟩
  split
  · next he => rw [he, hself]
  · next he => exact hother e he

/-- PAIR, where it applies, links both devices to the channel it creates. -/
theorem runCommands_pair_links {s : State} {a b k : Nat} (ha : a < s.nDev) (hb : b < s.nDev) (hroom : s.nextCh < 65536)
    (hk : pseudoApplies s (.pair a b k) = true) :
    ∃ t, runCommands (expand (.pair a b k)) s = .next t ∧ t.handle a = some k ∧ t.handle b = some k ∧ t.isLive k = true := by
  obtain rfl : k = s.nextCh := beq_iff_eq.mp hk
  have hnew := exec_cnew hroom
  obtain ⟨hnext, hlive⟩ := exec_cnew_next hnew
  have hn := exec_nDev hnew
  obtain ⟨t, hta, tahandle, tan, tachan⟩ := exec_lnk_performed (c := s.nextCh) (ha.trans_eq hn.symm) (by omega)
  have tanext : t.nextCh = s.nextCh + 1 := (congrArg List.length tachan).trans hnext
  obtain ⟨u, hub, ubhandle, -, ubchan⟩ := exec_lnk_performed (s := t) (d := b) (c := s.nextCh) (by omega) (by omega)
  refine ⟨u, runCommands_three hnew hta hub, ?_, by simp [ubhandle], ?_⟩
  · simp [ubhandle, tahandle]
  · rw [State.isLive_congr (congrArg (·[s.nextCh]?) (ubchan.trans tachan)), hlive]

/-- STEP performs one ADV of each of its devices, with one response each, and stores their SERIAL_DATA only. -/
theorem runCommands_step (ds : List Nat) : ∀ {s : State}, (∀ d ∈ ds, d < s.nDev) →
    ∃ t rs, runCommands (expand (.step ds)) s = .next t ∧ t.log = s.log ++ rs ∧ rs.length = ds.length ∧
      ∀ e b, (b ≠ 0xFF01 ∨ e ∉ ds) → t.byte e b = s.byte e b := by
  induction ds with
  | nil => exact fun {s} _ => ⟨s, [], rfl, by simp, rfl, fun _ _ _ => rfl⟩
  | cons d ds ih =>
    intro s hds
    obtain ⟨hd, hds⟩ := List.forall_mem_cons.mp hds
    obtain ⟨t, hadv⟩ := exec_adv_performed hd
    obtain ⟨r, tlog⟩ := exec_log hadv
    obtain ⟨u, rs, hrest, ulog, hlen, hbyte⟩ := ih (s := t) fun e he => (hds e he).trans_eq (exec_nDev hadv).symm
    refine ⟨u, r :: rs, (runCommands_cons hadv).trans hrest, by simp [ulog, tlog], by simp [hlen], fun e b he => ?frame⟩
    case frame =>
      rw [List.mem_cons, not_or] at he
      obtain hb | ⟨hed, hrest⟩ := he
      · exact (hbyte e b (.inl hb)).trans (exec_adv_byte hadv fun ⟨_, h⟩ => hb h)
      · exact (hbyte e b (.inr hrest)).trans (exec_adv_byte hadv fun ⟨h, _⟩ => hed h)

/-- Settles O50: each clause is the run of one expansion. -/
theorem pseudoInstructionsTakeEffect : Obligations.PseudoInstructionsTakeEffect := by
  refine ⟨fun s d hd => ?setMaster, fun s d hd => ?setSlave, fun s d v hd => runCommands_setSD_getSD v hd,
    fun s a b k ha hb hroom hk => runCommands_pair_links ha hb hroom hk, fun s d ds hd => ?stepFirst,
    fun s ds hds => runCommands_step ds hds⟩
  case setMaster =>
    obtain ⟨t, r, hrun, hlast, hmaster, -⟩ := runCommands_setControl_adv 0xFF hd
    exact ⟨t, r, hrun, hlast, hmaster.mpr rfl⟩
  case setSlave =>
    obtain ⟨t, r, hrun, hlast, -, hslave⟩ := runCommands_setControl_adv 0x00 hd
    exact ⟨t, r, hrun, hlast, hslave.mpr (by decide)⟩
  case stepFirst =>
    obtain ⟨t, hadv⟩ := exec_adv_performed hd
    exact ⟨t, hadv, runCommands_cons hadv⟩

end Sys2Proof.Machine
end

section
/-! PROOFS. The region table and the dumps: the regions partition the store, the IO sub-registers lie in the IO region, the shape of
DMP's records, and the text of a dump. -/

namespace Sys2Proof.Machine

/-! ### The region table (rules R50 to R53, R58) -/

theorem exists_region {a : Nat} (ha : a ≤ 0xFFFF) : ∃ r ∈ regionTable, r.start ≤ a ∧ a ≤ r.stop := by
  simp only [regionTable, List.exists_mem_cons_iff, List.not_mem_nil, false_and, exists_false, or_false]
  omega

/-- Settles O26: every address up to 0xFFFF is in a region, and the region that holds an address is the one `regionOf` finds. -/
theorem regionsPartitionTheStore : Obligations.RegionsPartitionTheStore := by
  refine ⟨by decide, by decide, fun a ha => ?inside, fun a => regionOf_eq_none, fun a => ?starts⟩
  case inside =>
    obtain ⟨r, hr, h1, h2⟩ := exists_region ha
    have found := regionOf_eq_some hr h1 h2
    refine ⟨r, found, hr, Region.contains_iff.mpr ⟨h1, h2⟩, fun r' hr' hc => ?_⟩
    obtain ⟨h1', h2'⟩ := Region.contains_iff.mp hc
    exact Option.some.inj ((regionOf_eq_some hr' h1' h2').symm.trans found)
  case starts =>
    rw [isStart_iff, ← List.mem_map]
    rfl

/-- Settles O54: the bounds of `ioAddress_bounds` are those of the IO row. -/
theorem ioSubRegistersLieInTheIoRegion : Obligations.IoSubRegistersLieInTheIoRegion := by
  refine ⟨fun n => ?_, rfl, rfl⟩
  obtain ⟨h1, h2⟩ := ioAddress_bounds n
  exact regionOf_eq_some (by decide) h1 h2

/-! ### The records of a dump (rules R115 to R118, R122, R126) -/

/-- A record with its line of bytes, if it is one, written as zeros. -/
def Record.shape : Record → Record
  | .bytes bs => .bytes (bs.map fun _ => 0)
  | .name r => .name r
  | .large => .large
  | .blank => .blank

/-- The bytes of a record. -/
def Record.lineBytes : Record → List Byte
  | .bytes bs => bs
  | .name _ => []
  | .large => []
  | .blank => []

theorem regionRecords_large (m : Memory) {r : Region} (h : 256 < r.size) :
    regionRecords m r = [.name r.id, .large, .blank] := by
  simp [regionRecords, h]

theorem regionRecords_small (m : Memory) {r : Region} (h : r.size ≤ 256) :
    regionRecords m r = .name r.id :: (regionLines m r ++ [.blank]) := by
  simp [regionRecords, h.not_gt]

/-- The shape of a line does not depend on the store. -/
theorem byteLine_shape (m m' : Memory) (lo hi : Nat) : (byteLine m lo hi).shape = (byteLine m' lo hi).shape := by
  simp [byteLine, Record.shape, Function.comp_def]

/-- The shape of a region's records does not depend on the store. -/
theorem regionRecords_shape (m m' : Memory) (r : Region) :
    (regionRecords m r).map Record.shape = (regionRecords m' r).map Record.shape := by
  rcases Nat.lt_or_ge 256 r.size with h | h
  · rw [regionRecords_large m h, regionRecords_large m' h]
  · simp [regionRecords_small _ h, regionLines, byteLine_shape m m']

/-- The shape of a dump does not depend on the store, so it can be read off the dump of the empty one. -/
theorem dumpRecords_shape (m : Memory) : (dumpRecords m).map Record.shape = (dumpRecords []).map Record.shape := by
  simp only [dumpRecords, List.map_flatMap, regionRecords_shape m []]

/-- What does not go by the bytes of a dump's lines is what it is for the empty store's dump. -/
theorem dumpRecords_of_shape {β : Type} {g : List Record → β} (hg : ∀ rs, g (rs.map Record.shape) = g rs) (m : Memory) :
    g (dumpRecords m) = g (dumpRecords []) := by
  rw [← hg, dumpRecords_shape, hg]

/-- Selecting records by a property that does not go by the bytes counts the same for every store. -/
theorem dumpRecords_filter_length (m : Memory) {p : Record → Bool} (hp : ∀ r, p r.shape = p r) :
    ((dumpRecords m).filter p).length = ((dumpRecords []).filter p).length :=
  dumpRecords_of_shape (g := fun rs => (rs.filter p).length)
    (fun rs => by rw [List.filter_map, List.length_map, (funext hp : p ∘ Record.shape = p)]) m

/-- Naming records by a property that does not go by the bytes gives the same names for every store. -/
theorem dumpRecords_filterMap {α : Type} (m : Memory) {f : Record → Option α} (hf : ∀ r, f r.shape = f r) :
    (dumpRecords m).filterMap f = (dumpRecords []).filterMap f :=
  dumpRecords_of_shape (fun rs => by rw [List.filterMap_map, (funext hf : f ∘ Record.shape = f)]) m

/-- The bytes of the first `n` lines of a region are its first `8 * n` bytes, or all of them when the last line is short. -/
theorem lines_bytes (m : Memory) (start size n : Nat) :
    ((List.range n).flatMap fun k => (List.range (min (8 * (k + 1)) size - 8 * k)).map fun j => m.read (start + 8 * k + j)) =
      (List.range (min (8 * n) size)).map fun j => m.read (start + j) := by
  induction n with
  | zero => simp
  | succ n ih =>
    rw [List.range_succ, List.flatMap_append, ih, List.flatMap_singleton]
    rcases Nat.le_total size (8 * n) with h | h
    · have all : min (8 * (n + 1)) size = min (8 * n) size := by omega
      simp [all, h]
    · have before : min (8 * n) size = 8 * n := by omega
      have split : min (8 * (n + 1)) size = 8 * n + (min (8 * (n + 1)) size - 8 * n) := by omega
      rw [split, before, List.range_add, List.map_append, Nat.add_sub_cancel_left]
      simp [Function.comp_def, Nat.add_assoc]

/-- The lines of a region hold its bytes in rising address order. -/
theorem regionLines_bytes (m : Memory) {r : Region} (hr : r ∈ regionTable) :
    (regionLines m r).flatMap Record.lineBytes = (List.range r.size).map fun j => m.read (r.start + j) := by
  obtain ⟨-, hstop⟩ := regionTable_sizes r hr
  have lines : (regionLines m r).flatMap Record.lineBytes = (List.range ((r.size + 7) / 8)).flatMap fun k =>
      (List.range (min (8 * (k + 1)) r.size - 8 * k)).map fun j => m.read (r.start + 8 * k + j) := by
    rw [regionLines, List.flatMap_map]
    refine List.flatMap_congr fun k _ => ?_
    have count : min (r.start + 8 * k + 7) r.stop + 1 - (r.start + 8 * k) = min (8 * (k + 1)) r.size - 8 * k := by omega
    rw [byteLine, Record.lineBytes, count]
  have whole : min (8 * ((r.size + 7) / 8)) r.size = r.size := by omega
  rw [lines, lines_bytes, whole]

theorem regionRecords_bytes (m : Memory) {r : Region} (hr : r ∈ regionTable) (h : r.size ≤ 256) :
    (regionRecords m r).flatMap Record.lineBytes = (List.range r.size).map fun j => m.read (r.start + j) := by
  rw [regionRecords_small m h, List.flatMap_cons, List.flatMap_append, regionLines_bytes m hr]
  simp [Record.lineBytes]

/-- The dumps of adjoining small regions hold their bytes in rising address order. -/
theorem regionRecords_bytes_adjoining (m : Memory) {r : Region} {rs : List Region} (hmem : r :: rs ⊆ regionTable)
    (hsmall : ∀ r' ∈ r :: rs, r'.size ≤ 256) (hadj : (r :: rs).IsChain fun r r' => r'.start = r.start + r.size) :
    ((r :: rs).flatMap (regionRecords m)).flatMap Record.lineBytes =
      (List.range ((r :: rs).map Region.size).sum).map fun j => m.read (r.start + j) := by
  induction rs generalizing r with
  | nil =>
    obtain ⟨hr, -⟩ := List.cons_subset.mp hmem
    obtain ⟨h, -⟩ := List.forall_mem_cons.mp hsmall
    simpa using regionRecords_bytes m hr h
  | cons r' rs ih =>
    obtain ⟨hr, hrs⟩ := List.cons_subset.mp hmem
    obtain ⟨h, hsmall⟩ := List.forall_mem_cons.mp hsmall
    obtain ⟨hstart, hadj⟩ := List.isChain_cons_cons.mp hadj
    rw [List.map_cons, List.sum_cons, List.range_add, List.map_append, List.flatMap_cons, List.flatMap_append,
      regionRecords_bytes m hr h, ih hrs hsmall hadj, hstart]
    simp only [List.map_map, Function.comp_def, Nat.add_assoc]

/-- A dump holds the bytes of the regions up to 256 bytes, 0xFE00..0xFFFF; the six regions below are large. -/
theorem dumpRecords_bytes (m : Memory) :
    (dumpRecords m).flatMap Record.lineBytes = (List.range 512).map fun j => m.read (0xFE00 + j) := by
  have large : ∀ r ∈ regionTable.take 6, 256 < r.size := by decide
  have small : ∀ r ∈ regionTable.drop 6, r.size ≤ 256 := by decide
  have below : ((regionTable.take 6).flatMap (regionRecords m)).flatMap Record.lineBytes = [] := by
    rw [List.flatMap_assoc]
    refine List.flatMap_eq_nil_iff.mpr fun r hr => ?_
    rw [regionRecords_large m (large r hr)]
    rfl
  rw [dumpRecords, ← List.take_append_drop 6 regionTable, List.flatMap_append, List.flatMap_append, below, List.nil_append]
  exact regionRecords_bytes_adjoining m (List.drop_subset 6 regionTable) small (by decide)

/-- Settles O28: the shape and the counts are those of the empty store's dump, and the bytes are `dumpRecords_bytes`. -/
theorem dumpHasItsFixedShape : Obligations.DumpHasItsFixedShape := by
  intro m
  refine ⟨?shapes, ?count, ?names, ?larges, ?lines, ?blanks, ?bytes⟩
  case shapes =>
    refine (List.map_congr_left fun r _ => ?_).trans ((dumpRecords_shape m).trans (by decide))
    cases r <;> rfl
  case count =>
    rw [dumpRecords_of_shape (fun _ => List.length_map Record.shape) m]
    decide
  case names =>
    rw [dumpRecords_filterMap m fun r => by cases r <;> rfl]
    decide
  case larges =>
    rw [dumpRecords_filter_length m fun r => by cases r <;> rfl]
    decide
  case lines =>
    rw [dumpRecords_filter_length m fun r => by cases r <;> rfl]
    decide
  case blanks =>
    rw [dumpRecords_filter_length m fun r => by cases r <;> rfl]
    decide
  case bytes =>
    refine (List.flatMap_congr fun r _ => ?_).trans (dumpRecords_bytes m)
    cases r <;> rfl

/-! ### DMPIO beside DMP (rule R126) -/

/-- The lines of the IO region are those of DMPIO. -/
theorem regionLines_io (m : Memory) : regionLines m ⟨.io, 0xFF00, 0xFF7F, 0x80⟩ = dumpIoRecords m := by
  refine List.map_congr_left fun k hk => ?_
  have hk : k < 16 := List.mem_range.mp hk
  have within : min (0xFF00 + 8 * k + 7) 0xFF7F = 0xFF00 + 8 * k + 7 := by omega
  simp only [within]

/-- The IO region's records stand in a dump after the 54 records of the eight regions below it. -/
theorem dumpRecords_around_io (m : Memory) :
    ∃ before after, before.length = 54 ∧
      dumpRecords m = before ++ ([.name .io] ++ dumpIoRecords m ++ [.blank]) ++ after := by
  refine ⟨(regionTable.take 8).flatMap (regionRecords m), (regionTable.drop 9).flatMap (regionRecords m), ?_, ?_⟩
  · simp [regionTable, regionRecords, regionLines]
  · rw [← regionLines_io]
    simp [dumpRecords, regionTable, regionRecords]

/-- Settles O53: the 16 lines follow the name of the IO region, and its blank line follows them. -/
theorem dmpioLinesAreTheIoLinesOfDmp : Obligations.DmpioLinesAreTheIoLinesOfDmp := by
  intro s t u d hdmp hdmpio
  obtain ⟨x, hx, ht⟩ := withDevice_next hdmp
  cases ht
  cases (withDevice_some hx).symm.trans hdmpio
  obtain ⟨before, after, hlen, hdump⟩ := dumpRecords_around_io x.mem
  have lines : (dumpIoRecords x.mem).length = 16 := by simp [dumpIoRecords]
  refine ⟨_, _, rfl, rfl, ?_, ?_, ?_⟩
  · simp [hdump, hlen]
  · have past : before.drop 55 = [] := List.drop_eq_nil_of_le (by omega)
    simp [hdump, hlen, List.drop_append, past, List.take_left' lines]
  · simp [hdump, hlen, lines, List.getElem?_append]

/-! ### The text of a dump (rule R121) -/

theorem hexDigit_ne_lineFeed {n : Nat} (h : n < 16) : hexDigit n ≠ Char.ofNat 10 := by
  have digits : ∀ n < 16, hexDigit n ≠ Char.ofNat 10 := by decide
  exact digits n h

theorem hexByte_lineFeed (b : Byte) : Char.ofNat 10 ∉ hexByte b := by
  have := b.isLt
  have high := hexDigit_ne_lineFeed (n := b.toNat / 16) (by omega)
  have low := hexDigit_ne_lineFeed (n := b.toNat % 16) (by omega)
  simp [hexByte, high.symm, low.symm]

theorem hexLine_lineFeed (bs : List Byte) : Char.ofNat 10 ∉ hexLine bs := by
  induction bs using hexLine.induct with
  | case1 => exact List.not_mem_nil
  | case2 b => exact hexByte_lineFeed b
  | case3 b bs hne ih =>
    rw [hexLine.eq_3 b bs hne]
    simp [hexByte_lineFeed, ih]

/-- No record's text holds a line feed. -/
theorem renderRecord_lineFeed (r : Record) : Char.ofNat 10 ∉ renderRecord r := by
  cases r with
  | name id => cases id <;> decide
  | bytes bs => exact hexLine_lineFeed bs
  | large => decide
  | blank => exact List.not_mem_nil

/-- Settles O30: each record's line feed is the only one of its line. -/
theorem renderedDumpHasOneLinePerRecord : Obligations.RenderedDumpHasOneLinePerRecord := by
  intro rs
  induction rs with
  | nil => rfl
  | cons r rs ih =>
    have line : (renderRecord r ++ [Char.ofNat 10]).count (Char.ofNat 10) = 1 := by
      rw [List.count_append, List.count_eq_zero.mpr (renderRecord_lineFeed r), List.count_singleton_self]
    rw [renderDump, List.flatMap_cons, List.count_append, line, ← renderDump, ih, List.length_cons, Nat.add_comm]

end Sys2Proof.Machine
end
